-- ==== Sys2Proof/Word.lean ====
section
/-! DEFINITION. The word types of the chip8-rust core (spec/00_scope.md R5, R7, R8). -/

namespace Sys2Proof

/-- A memory byte or the contents of a general register (R5: 8 bits). -/
abbrev Byte := BitVec 8

/-- An instruction word, the program counter, a call-stack entry (R5: 16 bits). -/
abbrev Word := BitVec 16

/-- A 12-bit address: the index register and the immediate `NNN` (R5, R20, R63). -/
abbrev Addr := BitVec 12

/-- One packed display row of 64 pixels, bit `63 - c` being column `c` (R28). -/
abbrev PixelRow := BitVec 64

/-- The number of a general register, selected by a 4-bit field (R11). -/
abbrev RegNo := Fin 16

/-- The number of a key, 0 to 15 (R188). -/
abbrev KeyNo := Fin 16

end Sys2Proof
end

