-- ==== Sys2Proof/Config.lean ====
section
/-! DEFINITION. What is fixed for a machine (sizes, the FONT parameter) and the free values: what the
surroundings do, which no rule of the spec fixes (R6, R25, R89, R239). -/

namespace Sys2Proof

/-- The 80 bytes of the FONT parameter (R6, R27). -/
abbrev Font := Vector Byte 80

/-- The input record of one step (R89): the 16 key states, the keypad's poll answer, the random byte. -/
structure Env where
  keys : BitVec 16
  poll : Option KeyNo
  rnd  : Byte
  deriving DecidableEq, Repr, Inhabited

/-- What the surroundings do up to and including one step: a number of tick events, then a step event
with its input record. The order of ticks and steps is an input of the model (R239). -/
structure Stimulus where
  ticks : Nat
  env   : Env
  deriving DecidableEq, Repr, Inhabited

namespace Config

/-- `MEM_SIZE` (R5). -/
@[simp] abbrev memSize : Nat := 4096
/-- `STACK_DEPTH` (R5). -/
@[simp] abbrev stackDepth : Nat := 16
/-- `DISP_ROWS` (R5). -/
@[simp] abbrev dispRows : Nat := 32
/-- `PROG_BASE` (R5). -/
@[simp] abbrev progBase : Nat := 0x200
/-- `RESET_PC` (R5). -/
@[simp] abbrev resetPc : Word := 0x0200
/-- The number of font bytes: 16 glyphs of 5 bytes from address 0 (R5, R27). -/
@[simp] abbrev fontSize : Nat := 80

/-- The default glyph bytes of R27, glyphs 0 to 7. PRESUMED (the spec marks the table as general
knowledge), log 3. -/
def glyphsLow : List Byte :=
  [0xF0, 0x90, 0x90, 0x90, 0xF0] ++ [0x20, 0x60, 0x20, 0x20, 0x70] ++
  [0xF0, 0x10, 0xF0, 0x80, 0xF0] ++ [0xF0, 0x10, 0xF0, 0x10, 0xF0] ++
  [0x90, 0x90, 0xF0, 0x10, 0x10] ++ [0xF0, 0x80, 0xF0, 0x10, 0xF0] ++
  [0xF0, 0x80, 0xF0, 0x90, 0xF0] ++ [0xF0, 0x10, 0x20, 0x40, 0x40]

/-- The default glyph bytes of R27, glyphs 8 to F. PRESUMED, log 3. -/
def glyphsHigh : List Byte :=
  [0xF0, 0x90, 0xF0, 0x90, 0xF0] ++ [0xF0, 0x90, 0xF0, 0x10, 0xF0] ++
  [0xF0, 0x90, 0xF0, 0x90, 0x90] ++ [0xE0, 0x90, 0xE0, 0x90, 0xE0] ++
  [0xF0, 0x80, 0x80, 0x80, 0xF0] ++ [0xE0, 0x90, 0x90, 0x90, 0xE0] ++
  [0xF0, 0x80, 0xF0, 0x80, 0xF0] ++ [0xF0, 0x80, 0xF0, 0x80, 0x80]

/-- The default value of the FONT parameter (R27, D28). PRESUMED, log 3. Only `State.reset` uses it;
`State.powerOn` takes any font. -/
def customaryFont : Font := ⟨(glyphsLow ++ glyphsHigh).toArray, by decide⟩

/-- FREE VALUE (U11, U12, U13; log 1): the ticks and the input record the surroundings supply for the
`n`-th step when nothing is scheduled. It has no body, so every answer is admitted. -/
opaque freeStimulus : Nat → Stimulus

end Config

end Sys2Proof
end

