-- ==== Sys2Proof/Syntax.lean ====
section
/-! DEFINITION. The instructions: one constructor per row of `spec/opcode_table.json` (R65). Operand
ranges are those of the encoding fields (R61, R63), so every term is an instruction the encoding admits. -/

namespace Sys2Proof

/-- The 34 instructions of R65, in the order of its table. `x` and `y` select a general register, `kk` is
an immediate byte, `nnn` an immediate address, `n` a number of sprite bytes. -/
inductive Instr
  /-- 00E0, R164 -/
  | cls
  /-- 00EE, R100 -/
  | ret
  /-- 1NNN, R101 -/
  | jp (nnn : Addr)
  /-- 2NNN, R102 -/
  | call (nnn : Addr)
  /-- 3XKK, R103 -/
  | seVxKk (x : RegNo) (kk : Byte)
  /-- 4XKK, R104 -/
  | sneVxKk (x : RegNo) (kk : Byte)
  /-- 5XY_, R105 -/
  | seVxVy (x y : RegNo)
  /-- 6XKK, R120 -/
  | ldVxKk (x : RegNo) (kk : Byte)
  /-- 7XKK, R121 -/
  | addVxKk (x : RegNo) (kk : Byte)
  /-- 8XY0, R122 -/
  | ldVxVy (x y : RegNo)
  /-- 8XY1, R123 -/
  | orVxVy (x y : RegNo)
  /-- 8XY2, R124 -/
  | andVxVy (x y : RegNo)
  /-- 8XY3, R125 -/
  | xorVxVy (x y : RegNo)
  /-- 8XY4, R126 -/
  | addVxVy (x y : RegNo)
  /-- 8XY5, R127 -/
  | sub (x y : RegNo)
  /-- 8XY6, R128; `y` is decoded but unused (R67 c) -/
  | shr (x y : RegNo)
  /-- 8XY7, R129 -/
  | subn (x y : RegNo)
  /-- 8XYE, R130; `y` is decoded but unused (R67 c) -/
  | shl (x y : RegNo)
  /-- 9XY_, R106 -/
  | sneVxVy (x y : RegNo)
  /-- ANNN, R140 -/
  | ldINnn (nnn : Addr)
  /-- BNNN, R107 -/
  | jpV0 (nnn : Addr)
  /-- CXKK, R187 -/
  | rnd (x : RegNo) (kk : Byte)
  /-- DXYN, R165 -/
  | drw (x y : RegNo) (n : Fin 16)
  /-- EX9E, R184 -/
  | skp (x : RegNo)
  /-- EXA1, R185 -/
  | sknp (x : RegNo)
  /-- FX07, R180 -/
  | ldVxDt (x : RegNo)
  /-- FX0A, R186 -/
  | ldVxK (x : RegNo)
  /-- FX15, R181 -/
  | ldDtVx (x : RegNo)
  /-- FX18, R182 -/
  | ldStVx (x : RegNo)
  /-- FX1E, R141 -/
  | addIVx (x : RegNo)
  /-- FX29, R142 -/
  | ldFVx (x : RegNo)
  /-- FX33, R143 -/
  | ldBVx (x : RegNo)
  /-- FX55, R144; `x` is the last register stored -/
  | ldMiVx (x : RegNo)
  /-- FX65, R145; `x` is the last register loaded -/
  | ldVxMi (x : RegNo)
  deriving DecidableEq, Repr

end Sys2Proof
end

