-- ==== Sys2Proof/WellFormed.lean ====
section
/-! DEFINITION. Well-formedness. An `Instr` needs no check: every operand's type is the range of its
encoding field (R61), so an ill-formed instruction cannot be written (R11: indices of 16 and more are
never produced). Two things handed to the machine as raw data can be ill-formed: an instruction word that
is not the canonical spelling of its instruction (R67), and a program image that does not fit (R233). -/

namespace Sys2Proof

/-- The bits of a word that the decoder ignores (R67): bits 11:8 in family 0, bits 3:0 in families 5
and 9, none elsewhere. (The Y field of 8XY6 and 8XYE is decoded, R67 c, and is not counted here.) -/
def ignoredBits (op : Word) : Word :=
  if op.extractLsb' 12 4 = 0x0 then 0x0F00
  else if op.extractLsb' 12 4 = 0x5 then 0x000F
  else if op.extractLsb' 12 4 = 0x9 then 0x000F
  else 0x0000

/-- A word is spelled canonically when every ignored bit is zero (R67, R70). -/
def canonicalWord (op : Word) : Bool := op &&& ignoredBits op == 0

/-- A program image fits when `0x200 + L` does not exceed 4096 (R233). -/
def imageFits (image : List Byte) : Bool := Config.progBase + image.length ≤ Config.memSize

end Sys2Proof
end

