-- ==== Sys2Proof/Decode.lean ====
section
/-! DEFINITION. The opcode decoder (R64, R65, R66), the encoder (R70), and the opcode map as data. The
decoder is total on any bytes and rejects by name. Both are written from the formats of R62. -/

namespace Sys2Proof

/-! ### Fields (R61) -/

/-- `op[15:12]`, the family: the first decode level. -/
def opFamily (op : Word) : BitVec 4 := op.extractLsb' 12 4
/-- `X = op[11:8]`. -/
def opX (op : Word) : RegNo := (op.extractLsb' 8 4).toFin
/-- `Y = op[7:4]`. -/
def opY (op : Word) : RegNo := (op.extractLsb' 4 4).toFin
/-- `op[3:0]` as the operation nibble of family 8. -/
def opNibble (op : Word) : BitVec 4 := op.extractLsb' 0 4
/-- `N = op[3:0]` as the number of sprite bytes. -/
def opN (op : Word) : Fin 16 := (op.extractLsb' 0 4).toFin
/-- `KK = op[7:0]`. -/
def opKK (op : Word) : Byte := op.extractLsb' 0 8
/-- `NNN = op[11:0]`. -/
def opNNN (op : Word) : Addr := op.extractLsb' 0 12

/-- Big-endian assembly of an instruction word: the byte at the lower address is the high byte (R42). -/
def joinBytes (hi lo : Byte) : Word := hi ++ lo
/-- The high byte of a word, stored first (R42). -/
def hiByte (op : Word) : Byte := op.extractLsb' 8 8
/-- The low byte of a word, stored second (R42). -/
def loByte (op : Word) : Byte := op.extractLsb' 0 8

/-! ### The decoder -/

/-- Why bytes are no instruction. -/
inductive Reject
  /-- Fewer than two bytes were given: there is no instruction word (R60). -/
  | truncated
  /-- The word matches no row of the opcode map (R66). -/
  | invalidInstruction (op : Word)
  deriving DecidableEq, Repr

/-- Family 0: the sub-decode is on the low byte alone; `op[11:8]` is ignored (R64, R67 a). -/
def decodeFamily0 (op : Word) : Except Reject Instr :=
  if opKK op = 0xE0 then .ok .cls
  else if opKK op = 0xEE then .ok .ret
  else .error (.invalidInstruction op)

/-- Family 8: the sub-decode is on the operation nibble (R64, R65). -/
def decodeFamily8 (op : Word) : Except Reject Instr :=
  if opNibble op = 0x0 then .ok (.ldVxVy (opX op) (opY op))
  else if opNibble op = 0x1 then .ok (.orVxVy (opX op) (opY op))
  else if opNibble op = 0x2 then .ok (.andVxVy (opX op) (opY op))
  else if opNibble op = 0x3 then .ok (.xorVxVy (opX op) (opY op))
  else if opNibble op = 0x4 then .ok (.addVxVy (opX op) (opY op))
  else if opNibble op = 0x5 then .ok (.sub (opX op) (opY op))
  else if opNibble op = 0x6 then .ok (.shr (opX op) (opY op))
  else if opNibble op = 0x7 then .ok (.subn (opX op) (opY op))
  else if opNibble op = 0xE then .ok (.shl (opX op) (opY op))
  else .error (.invalidInstruction op)

/-- Family E: the sub-decode is on the low byte (R64, R65). -/
def decodeFamilyE (op : Word) : Except Reject Instr :=
  if opKK op = 0x9E then .ok (.skp (opX op))
  else if opKK op = 0xA1 then .ok (.sknp (opX op))
  else .error (.invalidInstruction op)

/-- Family F: the sub-decode is on the low byte (R64, R65). -/
def decodeFamilyF (op : Word) : Except Reject Instr :=
  if opKK op = 0x07 then .ok (.ldVxDt (opX op))
  else if opKK op = 0x0A then .ok (.ldVxK (opX op))
  else if opKK op = 0x15 then .ok (.ldDtVx (opX op))
  else if opKK op = 0x18 then .ok (.ldStVx (opX op))
  else if opKK op = 0x1E then .ok (.addIVx (opX op))
  else if opKK op = 0x29 then .ok (.ldFVx (opX op))
  else if opKK op = 0x33 then .ok (.ldBVx (opX op))
  else if opKK op = 0x55 then .ok (.ldMiVx (opX op))
  else if opKK op = 0x65 then .ok (.ldVxMi (opX op))
  else .error (.invalidInstruction op)

/-- The two-level decode of a word: 16-way on the high nibble, then per family (R64, R65); the last
branch is family F. It reads nothing but the word. -/
def decodeOp (op : Word) : Except Reject Instr :=
  if opFamily op = 0x0 then decodeFamily0 op
  else if opFamily op = 0x1 then .ok (.jp (opNNN op))
  else if opFamily op = 0x2 then .ok (.call (opNNN op))
  else if opFamily op = 0x3 then .ok (.seVxKk (opX op) (opKK op))
  else if opFamily op = 0x4 then .ok (.sneVxKk (opX op) (opKK op))
  else if opFamily op = 0x5 then .ok (.seVxVy (opX op) (opY op))
  else if opFamily op = 0x6 then .ok (.ldVxKk (opX op) (opKK op))
  else if opFamily op = 0x7 then .ok (.addVxKk (opX op) (opKK op))
  else if opFamily op = 0x8 then decodeFamily8 op
  else if opFamily op = 0x9 then .ok (.sneVxVy (opX op) (opY op))
  else if opFamily op = 0xA then .ok (.ldINnn (opNNN op))
  else if opFamily op = 0xB then .ok (.jpV0 (opNNN op))
  else if opFamily op = 0xC then .ok (.rnd (opX op) (opKK op))
  else if opFamily op = 0xD then .ok (.drw (opX op) (opY op) (opN op))
  else if opFamily op = 0xE then decodeFamilyE op
  else decodeFamilyF op

/-- Decoding bytes as they lie in memory: the first two form the word, the rest is returned (R60, R42). -/
def decode (bytes : List Byte) : Except Reject (Instr × List Byte) :=
  match bytes with
  | hi :: lo :: rest =>
    match decodeOp (joinBytes hi lo) with
    | .ok i => .ok (i, rest)
    | .error e => .error e
  | _ => .error .truncated

/-- The instruction the decoder reads from a table word of `nbits` bits, laid out big-endian (R42). The
bits above `nbits` are zero. -/
def decodeTableWord (nbits w : Nat) : Option Instr :=
  let op : Word := BitVec.ofNat 16 (w % 2 ^ nbits)
  match decode [hiByte op, loByte op] with
  | .ok (i, _) => some i
  | .error _ => none

/-! ### The encoder (R62, R70) -/

/-- Format Z: family 0, ignored bits zero, the sub-op byte. -/
def formatZ (sub : Byte) : Word := 0x00#8 ++ sub
/-- Format A: the family nibble and `NNN`. -/
def formatA (family : BitVec 4) (nnn : Addr) : Word := family ++ nnn
/-- Formats XK and XS: the family nibble, `X`, and `KK` or the sub-op byte. -/
def formatXK (family : BitVec 4) (x : RegNo) (kk : Byte) : Word := family ++ (BitVec.ofFin x : BitVec 4) ++ kk
/-- Formats XY and XYN: the family nibble, `X`, `Y`, and the operation nibble, zero, or `N`. -/
def formatXYN (family : BitVec 4) (x y : RegNo) (n : Fin 16) : Word :=
  family ++ (BitVec.ofFin x : BitVec 4) ++ (BitVec.ofFin y : BitVec 4) ++ (BitVec.ofFin n : BitVec 4)

/-- The word of an instruction, every ignored bit zero (R70). -/
def encode : Instr → Word
  | .cls => formatZ 0xE0
  | .ret => formatZ 0xEE
  | .jp nnn => formatA 0x1 nnn
  | .call nnn => formatA 0x2 nnn
  | .seVxKk x kk => formatXK 0x3 x kk
  | .sneVxKk x kk => formatXK 0x4 x kk
  | .seVxVy x y => formatXYN 0x5 x y 0x0
  | .ldVxKk x kk => formatXK 0x6 x kk
  | .addVxKk x kk => formatXK 0x7 x kk
  | .ldVxVy x y => formatXYN 0x8 x y 0x0
  | .orVxVy x y => formatXYN 0x8 x y 0x1
  | .andVxVy x y => formatXYN 0x8 x y 0x2
  | .xorVxVy x y => formatXYN 0x8 x y 0x3
  | .addVxVy x y => formatXYN 0x8 x y 0x4
  | .sub x y => formatXYN 0x8 x y 0x5
  | .shr x y => formatXYN 0x8 x y 0x6
  | .subn x y => formatXYN 0x8 x y 0x7
  | .shl x y => formatXYN 0x8 x y 0xE
  | .sneVxVy x y => formatXYN 0x9 x y 0x0
  | .ldINnn nnn => formatA 0xA nnn
  | .jpV0 nnn => formatA 0xB nnn
  | .rnd x kk => formatXK 0xC x kk
  | .drw x y n => formatXYN 0xD x y n
  | .skp x => formatXK 0xE x 0x9E
  | .sknp x => formatXK 0xE x 0xA1
  | .ldVxDt x => formatXK 0xF x 0x07
  | .ldVxK x => formatXK 0xF x 0x0A
  | .ldDtVx x => formatXK 0xF x 0x15
  | .ldStVx x => formatXK 0xF x 0x18
  | .addIVx x => formatXK 0xF x 0x1E
  | .ldFVx x => formatXK 0xF x 0x29
  | .ldBVx x => formatXK 0xF x 0x33
  | .ldMiVx x => formatXK 0xF x 0x55
  | .ldVxMi x => formatXK 0xF x 0x65

/-- The bytes of an instruction in memory order (R42). -/
def encodeBytes (i : Instr) : List Byte := [hiByte (encode i), loByte (encode i)]

/-! ### The opcode map as data (R65) -/

/-- A row of R65: a word is the row's instruction iff `op AND mask = pattern`. -/
structure OpRow where
  mask    : Word
  pattern : Word
  deriving DecidableEq, Repr

/-- The word matches the row (R65). -/
def OpRow.hits (r : OpRow) (op : Word) : Bool := op &&& r.mask == r.pattern

/-- The row of R65 an instruction stands on. -/
def Instr.row : Instr → OpRow
  | .cls => ⟨0xF0FF, 0x00E0⟩
  | .ret => ⟨0xF0FF, 0x00EE⟩
  | .jp _ => ⟨0xF000, 0x1000⟩
  | .call _ => ⟨0xF000, 0x2000⟩
  | .seVxKk _ _ => ⟨0xF000, 0x3000⟩
  | .sneVxKk _ _ => ⟨0xF000, 0x4000⟩
  | .seVxVy _ _ => ⟨0xF000, 0x5000⟩
  | .ldVxKk _ _ => ⟨0xF000, 0x6000⟩
  | .addVxKk _ _ => ⟨0xF000, 0x7000⟩
  | .ldVxVy _ _ => ⟨0xF00F, 0x8000⟩
  | .orVxVy _ _ => ⟨0xF00F, 0x8001⟩
  | .andVxVy _ _ => ⟨0xF00F, 0x8002⟩
  | .xorVxVy _ _ => ⟨0xF00F, 0x8003⟩
  | .addVxVy _ _ => ⟨0xF00F, 0x8004⟩
  | .sub _ _ => ⟨0xF00F, 0x8005⟩
  | .shr _ _ => ⟨0xF00F, 0x8006⟩
  | .subn _ _ => ⟨0xF00F, 0x8007⟩
  | .shl _ _ => ⟨0xF00F, 0x800E⟩
  | .sneVxVy _ _ => ⟨0xF000, 0x9000⟩
  | .ldINnn _ => ⟨0xF000, 0xA000⟩
  | .jpV0 _ => ⟨0xF000, 0xB000⟩
  | .rnd _ _ => ⟨0xF000, 0xC000⟩
  | .drw _ _ _ => ⟨0xF000, 0xD000⟩
  | .skp _ => ⟨0xF0FF, 0xE09E⟩
  | .sknp _ => ⟨0xF0FF, 0xE0A1⟩
  | .ldVxDt _ => ⟨0xF0FF, 0xF007⟩
  | .ldVxK _ => ⟨0xF0FF, 0xF00A⟩
  | .ldDtVx _ => ⟨0xF0FF, 0xF015⟩
  | .ldStVx _ => ⟨0xF0FF, 0xF018⟩
  | .addIVx _ => ⟨0xF0FF, 0xF01E⟩
  | .ldFVx _ => ⟨0xF0FF, 0xF029⟩
  | .ldBVx _ => ⟨0xF0FF, 0xF033⟩
  | .ldMiVx _ => ⟨0xF0FF, 0xF055⟩
  | .ldVxMi _ => ⟨0xF0FF, 0xF065⟩

/-- The rows of R65 for families 0 to 7. -/
def opcodeRowsLow : List OpRow :=
  [⟨0xF0FF, 0x00E0⟩, ⟨0xF0FF, 0x00EE⟩, ⟨0xF000, 0x1000⟩, ⟨0xF000, 0x2000⟩, ⟨0xF000, 0x3000⟩,
   ⟨0xF000, 0x4000⟩, ⟨0xF000, 0x5000⟩, ⟨0xF000, 0x6000⟩, ⟨0xF000, 0x7000⟩]

/-- The rows of R65 for family 8. -/
def opcodeRows8 : List OpRow :=
  [⟨0xF00F, 0x8000⟩, ⟨0xF00F, 0x8001⟩, ⟨0xF00F, 0x8002⟩, ⟨0xF00F, 0x8003⟩, ⟨0xF00F, 0x8004⟩,
   ⟨0xF00F, 0x8005⟩, ⟨0xF00F, 0x8006⟩, ⟨0xF00F, 0x8007⟩, ⟨0xF00F, 0x800E⟩]

/-- The rows of R65 for families 9 to F. -/
def opcodeRowsHigh : List OpRow :=
  [⟨0xF000, 0x9000⟩, ⟨0xF000, 0xA000⟩, ⟨0xF000, 0xB000⟩, ⟨0xF000, 0xC000⟩, ⟨0xF000, 0xD000⟩,
   ⟨0xF0FF, 0xE09E⟩, ⟨0xF0FF, 0xE0A1⟩, ⟨0xF0FF, 0xF007⟩, ⟨0xF0FF, 0xF00A⟩, ⟨0xF0FF, 0xF015⟩,
   ⟨0xF0FF, 0xF018⟩, ⟨0xF0FF, 0xF01E⟩, ⟨0xF0FF, 0xF029⟩, ⟨0xF0FF, 0xF033⟩, ⟨0xF0FF, 0xF055⟩,
   ⟨0xF0FF, 0xF065⟩]

/-- The 34 rows of R65. -/
def opcodeRows : List OpRow := opcodeRowsLow ++ opcodeRows8 ++ opcodeRowsHigh

end Sys2Proof
end

