-- ==== Sys2Proof/Machine/State.lean ====
section
/-! DEFINITION. The machine's state as plain data (spec/10_state.md), its fault kinds (R200), the model's
refusals, and the state after reset (R26, R230). -/

namespace Sys2Proof.Machine

/-- The fault kinds of R200. None of them is an outcome `fault` of a step: the spec gives each an effect
(R202, R207), so every step that raises one answers a NEXT state (log 5). Safe: nothing is left out. -/
inductive Fault
  /-- Raised by a step whose word matches no row of the opcode map; reported, not latched (R202). Safe. -/
  | invalidInstruction
  /-- Raised by 2NNN with 16 entries in use (R203). Safe. -/
  | stackOverflow
  /-- Raised by 00EE with no entry in use (R204). Safe. -/
  | stackUnderflow
  /-- Raised by a fetch, DXYN, FX33, FX55 or FX65 at an address of 4096 or more (R205). Safe. -/
  | addressOutOfRange
  /-- Raised by load_program with more than 3584 bytes (R206). Safe. -/
  | programTooLarge
  deriving DecidableEq, Repr

/-- Why the model gives something no meaning. -/
inductive Refusal
  /-- Raised by `exec` alone, for an instruction without a meaning; no arm raises it now. Safe. -/
  | notModelled (mnemonic : String)
  /-- Raised by load_program after the first step or after an earlier load: the spec defines neither, and
  a model should refuse them (R232, D23, U17; log 8). No step raises it. Safe. -/
  | loadAfterStart
  deriving DecidableEq, Repr

/-- `MEM` (R29, R40): the FONT parameter (R25: a constant of the machine; log 3), and the bytes that
differ from what reset left, as (address, byte) pairs with rising addresses (log 4). -/
structure Memory where
  font  : Font
  cells : List Host.Cell
  deriving DecidableEq, Repr

/-- The diagnostic information of a `Fatal` result (R90, R201). -/
inductive FaultInfo
  /-- An execute-time fault: `insn_addr` and `op`. -/
  | insn (insnAddr op : Word)
  /-- A fetch fault: `insn_addr`; `op` is absent. -/
  | fetch (insnAddr : Word)
  /-- ProgramTooLarge: the length `L`. -/
  | load (length : Nat)
  /-- `HALT` was already 1 when the event arrived (R208). -/
  | latched
  deriving DecidableEq, Repr

/-- The result a step or load_program event returns (R90, R232). -/
inductive Report
  /-- No event has returned a result since reset. -/
  | pending
  /-- `Ok`. -/
  | ok
  /-- `Invalid(insn_addr, op)`: non-fatal (R88). -/
  | invalid (insnAddr op : Word)
  /-- `Fatal(code, …)` (R90, R207). -/
  | fatal (code : BitVec 3) (info : FaultInfo)
  deriving DecidableEq, Repr

/-- The MODEL's own fields: the event interface as plain data. None is state of the spec (R24, R25). -/
structure Port where
  /-- Scheduled stimuli, oldest first; when empty the surroundings are free (log 1). -/
  pending  : List Stimulus
  /-- How many stimuli have been consumed: the argument of `Config.freeStimulus` (log 1). -/
  draws    : Nat
  /-- The input record sampled for the step in progress (R89). -/
  env      : Env
  /-- The wire `insn_addr` of the step in progress (R82; log 7). -/
  insnAddr : Word
  /-- The word fetched by the step in progress (R81; log 7). -/
  op       : Word
  /-- The result of the last step or load_program (R90; log 6). -/
  report   : Report
  /-- load_program is still defined: neither a step nor a load has happened since reset (R232; log 8). -/
  loadOpen : Bool
  deriving DecidableEq, Repr

/-- The state of the machine: all of the table of spec/10_state.md §1, and the model's own `port`. -/
structure State where
  /-- `V[0..15]` (R10). -/
  v     : Vector Byte 16
  /-- `I` (R20). -/
  i     : Addr
  /-- `PC` (R15). -/
  pc    : Word
  /-- `STACK[0..15]` (R17). -/
  stack : Vector Word 16
  /-- `SP`, the count of entries in use, 0 to 16 (R17, R22; log 10). -/
  sp    : Fin 17
  /-- `DT` (R21). -/
  dt    : Byte
  /-- `ST` (R21). -/
  st    : Byte
  /-- `DISP[0..31]` (R28). -/
  disp  : Vector PixelRow 32
  /-- `MEM` (R29). -/
  mem   : Memory
  /-- `HALT` (R23). -/
  halt  : Bool
  /-- `FAULT` (R23). -/
  fault : BitVec 3
  /-- The model's own event interface; not state of the spec. -/
  port  : Port
  deriving DecidableEq, Repr

/-- The port right after reset; the values are the model's (DESIGN CHOICE, log 1, 6, 7, 8). -/
def Port.reset : Port :=
  { pending := [], draws := 0, env := { keys := 0, poll := none, rnd := 0 }
    insnAddr := 0, op := 0, report := .pending, loadOpen := true }

/-- The state after reset for a given FONT (R26, R230): memory lists nothing, so it reads as the font at
0 to 79 and as zero elsewhere. -/
def State.powerOn (font : Font) : State :=
  { v := Vector.replicate 16 0, i := 0, pc := Config.resetPc
    stack := Vector.replicate 16 0, sp := 0, dt := 0, st := 0
    disp := Vector.replicate 32 0, mem := { font := font, cells := [] }
    halt := false, fault := 0, port := Port.reset }

/-- The state after reset (R26), with the default FONT of R27 (PRESUMED, log 3). -/
def State.reset : State := State.powerOn Config.customaryFont

end Sys2Proof.Machine
end

