-- ==== Sys2Proof/Machine/Ops.lean ====
section
/-! DEFINITION. The named operations over memory, registers, the call stack, the timers and the program
counter (R8), raising a fault (R207), and fetching (R82). -/

namespace Sys2Proof.Machine

/-! ### Memory (R40 to R47) -/

namespace Memory

/-- What an address reads as while it is not listed: what reset left there, FONT at 0 to 79 and zero
elsewhere (R26, R41; log 4). -/
def unlisted (font : Font) (a : Nat) : Byte := if h : a < 80 then font[a] else 0

/-- The first listed byte at an address. -/
def lookup (a : Nat) : List Host.Cell → Option Byte
  | [] => none
  | c :: cs => if c.1 = a then some c.2 else lookup a cs

/-- `MEM[a]`: the byte an address holds. -/
def byte (m : Memory) (a : Nat) : Byte := (lookup a m.cells).getD (unlisted m.font a)

/-- List a byte at an address, keeping the canonical form; `bg` is what the address reads as unlisted. -/
def insert (bg : Byte) (a : Nat) (b : Byte) : List Host.Cell → List Host.Cell
  | [] => if b = bg then [] else [(a, b)]
  | c :: cs =>
    if c.1 < a then c :: insert bg a b cs
    else if c.1 = a then (if b = bg then cs else (a, b) :: cs)
    else if b = bg then c :: cs else (a, b) :: c :: cs

/-- `MEM[a] <- b`. -/
def put (m : Memory) (a : Nat) (b : Byte) : Memory :=
  { m with cells := insert (unlisted m.font a) a b m.cells }

/-- Store consecutive bytes at rising addresses (R43). -/
def putAll (m : Memory) (a : Nat) : List Byte → Memory
  | [] => m
  | b :: bs => putAll (m.put a b) (a + 1) bs

/-- `MemRead(addr, 1)`: bounds-checked (R45). -/
def read (m : Memory) (a : Nat) : Except Fault Byte :=
  if a < Config.memSize then .ok (m.byte a) else .error .addressOutOfRange

/-- `MemWrite(addr, 1, b)`: bounds-checked (R46). -/
def write (m : Memory) (a : Nat) (b : Byte) : Except Fault Memory :=
  if a < Config.memSize then .ok (m.put a b) else .error .addressOutOfRange

/-- Read `n` consecutive bytes; the whole range is checked before the first read (R147). No byte is read,
and nothing is checked, when `n = 0`. -/
def readRange (m : Memory) (a n : Nat) : Except Fault (List Byte) :=
  if n = 0 ∨ a + n - 1 < Config.memSize then .ok ((List.range n).map fun k => m.byte (a + k))
  else .error .addressOutOfRange

/-- Store consecutive bytes; the whole range is checked before the first store (R147). -/
def writeRange (m : Memory) (a : Nat) (bs : List Byte) : Except Fault Memory :=
  if bs = [] ∨ a + bs.length - 1 < Config.memSize then .ok (m.putAll a bs)
  else .error .addressOutOfRange

/-- Addresses rise strictly, each above `lo` or equal to it, none reaches 4096, and no entry equals what
its address reads as unlisted. -/
def wfFrom (font : Font) (lo : Nat) : List Host.Cell → Bool
  | [] => true
  | c :: cs =>
    decide (lo ≤ c.1) && decide (c.1 < Config.memSize) && decide (c.2 ≠ unlisted font c.1) &&
      wfFrom font (c.1 + 1) cs

/-- The canonical form: equal memories (of one FONT) are equal data. -/
def wf (m : Memory) : Bool := wfFrom m.font 0 m.cells

end Memory

/-! ### Registers -/

/-- `V[x]` (R10, R11). -/
def State.reg (s : State) (x : RegNo) : Byte := s.v[x.val]

/-- `V[x] <- b` (R12). -/
def State.setReg (s : State) (x : RegNo) (b : Byte) : State := { s with v := s.v.set x.val b x.isLt }

/-- The number of VF, which is `V[15]` (R13). -/
abbrev vf : RegNo := 15

/-- Write a flag to VF first and a result to `V[x]` second, so that with `x = 15` the result survives
(R14, R87). -/
def State.setFlagAndReg (s : State) (flag : Byte) (x : RegNo) (b : Byte) : State :=
  (s.setReg vf flag).setReg x b

/-- `I <- a`; the 12-bit mask is in the type (R20). -/
def State.setI (s : State) (a : Addr) : State := { s with i := a }

/-- `PC <- a` (R15). -/
def State.setPc (s : State) (a : Word) : State := { s with pc := a }

/-- `DT <- b` (R21). -/
def State.setDt (s : State) (b : Byte) : State := { s with dt := b }

/-- `ST <- b` (R21). -/
def State.setSt (s : State) (b : Byte) : State := { s with st := b }

/-- Replace the display buffer (R28). -/
def State.setDisp (s : State) (d : Vector PixelRow 32) : State := { s with disp := d }

/-- Replace the memory (R29). -/
def State.setMem (s : State) (m : Memory) : State := { s with mem := m }

/-! ### Program counter -/

/-- The advance: `PC + 2`, and 0 if that is 4096 or more (R84). -/
def advancePc (pc : Word) : Word := if Config.memSize ≤ pc.toNat + 2 then 0 else pc + 2

/-- Step phase 2 (R81, R84). -/
def State.advance (s : State) : State := s.setPc (advancePc s.pc)

/-- `Skip()`: a plain 16-bit `PC <- PC + 2`, with no wrap to 0 (R91). -/
def State.skip (s : State) : State := s.setPc (s.pc + 2)

/-- A conditional skip. -/
def State.skipIf (s : State) (c : Bool) : State := if c then s.skip else s

/-! ### Call stack (R17, R18) -/

/-- `Push(a)`: StackOverflow when 16 entries are in use, else the entry is stored and SP incremented. -/
def State.push (s : State) (a : Word) : Except Fault State :=
  if h : s.sp.val < 16 then
    .ok { s with stack := s.stack.set s.sp.val a h, sp := ⟨s.sp.val + 1, by omega⟩ }
  else .error .stackOverflow

/-- `Pop()`: StackUnderflow when no entry is in use, else SP is decremented and the entry there returned;
its content stays in the array. -/
def State.pop (s : State) : Except Fault (Word × State) :=
  if h : 0 < s.sp.val then
    .ok (s.stack[s.sp.val - 1]'(by omega), { s with sp := ⟨s.sp.val - 1, by omega⟩ })
  else .error .stackUnderflow

/-! ### Results and faults (R90, R201, R207) -/

/-- The fault codes of R201. -/
def Fault.code : Fault → BitVec 3
  | .invalidInstruction => 1
  | .stackOverflow => 2
  | .stackUnderflow => 3
  | .addressOutOfRange => 4
  | .programTooLarge => 5

/-- Return a result from the event (log 6). -/
def State.setReport (s : State) (r : Report) : State := { s with port := { s.port with report := r } }

/-- Taking a fatal fault, the one shared operation (R207): `HALT <- 1`, `FAULT <- code`, the event returns
`Fatal(code, …)`; everything else stays as the event had left it, PC included. There is no handler and no
return from a fault (R209); only reset clears the latch (R208). -/
def State.raise (s : State) (f : Fault) (info : FaultInfo) : State :=
  { s with halt := true, fault := f.code, port := { s.port with report := .fatal f.code info } }

/-- A fault raised by the instruction in progress: it reports `insn_addr` and `op` (R201). -/
def State.raiseInsn (s : State) (f : Fault) : State := s.raise f (.insn s.port.insnAddr s.port.op)

/-- End an instruction that may raise: its own effect, or the fault taken from the state before it, so that
no partial effect is left (R147, R207). -/
def State.orRaise (s : State) (r : Except Fault State) : Host.Outcome State Fault Refusal :=
  match r with
  | .ok t => .next t
  | .error f => .next (s.raiseInsn f)

/-! ### Fetch (R42, R81, R82, R83) -/

/-- `op <- MEM[PC] ++ MEM[PC + 1]`, both reads bounds-checked, `PC + 1` over the integers. -/
def State.fetch (s : State) : Except Fault Word :=
  match s.mem.read s.pc.toNat with
  | .error f => .error f
  | .ok hi =>
    match s.mem.read (s.pc.toNat + 1) with
    | .error f => .error f
    | .ok lo => .ok (joinBytes hi lo)

/-- Begin a step: remember `insn_addr` (R82), let `Ok` be the result unless something else happens (R81),
and close the window in which load_program is defined (R232; log 8). -/
def State.beginStep (s : State) : State :=
  { s with port := { s.port with insnAddr := s.pc, report := .ok, loadOpen := false } }

/-- Remember the fetched word for the rest of the step (log 7). -/
def State.holdOp (s : State) (op : Word) : State := { s with port := { s.port with op := op } }

/-! ### The surroundings (R89, R183, R239) -/

/-- The tick event: each timer that is not zero is decremented by 1 (R183). -/
def State.tick (s : State) : State :=
  { s with dt := if s.dt ≠ 0 then s.dt - 1 else s.dt, st := if s.st ≠ 0 then s.st - 1 else s.st }

/-- `n` tick events at once: each timer falls by `n`, to no less than 0. -/
def State.ticks (s : State) (n : Nat) : State :=
  { s with dt := BitVec.ofNat 8 (s.dt.toNat - n), st := BitVec.ofNat 8 (s.st.toNat - n) }

/-- The stimulus of the next step: the oldest scheduled one, or a free value (log 1). -/
def State.stimulus (s : State) : Stimulus :=
  match s.port.pending with
  | x :: _ => x
  | [] => Config.freeStimulus s.port.draws

/-- The stimulus has been consumed. -/
def State.consume (s : State) : State :=
  { s with port := { s.port with pending := s.port.pending.tail, draws := s.port.draws + 1 } }

/-- Present the input record of a step (R89). -/
def State.presentEnv (s : State) (e : Env) : State := { s with port := { s.port with env := e } }

/-- What the surroundings do before a step executes: some ticks, then the step event's input record
(log 1, log 2). -/
def State.arrive (s : State) : State :=
  (s.consume.ticks s.stimulus.ticks).presentEnv s.stimulus.env

end Sys2Proof.Machine
end

