-- ==== Sys2Proof/Machine/Operands.lean ====
section
/-! DEFINITION. The operand forms: immediates, register operands, the register range `V[0..X]`, the
effective address `I + k`, and the values computed from operands (R63, R131, R142, R143, R146, R188). -/

namespace Sys2Proof.Machine

/-- `zext_16(NNN)` (R63). -/
def zextAddr (a : Addr) : Word := a.setWidth 16

/-- `zext_16` of a byte (R63, R107). -/
def zextByte (b : Byte) : Word := b.setWidth 16

/-- `sat_add8(a, b) = min(a + b, 255)` over the integers (R8). -/
def satAdd8 (a b : Byte) : Byte := BitVec.ofNat 8 (min (a.toNat + b.toNat) 255)

/-- `sat_sub8(a, b) = max(a - b, 0)` over the integers (R8). -/
def satSub8 (a b : Byte) : Byte := BitVec.ofNat 8 (a.toNat - b.toNat)

/-- The low nibble of a register's value: a digit (R142) or a key number (R184). -/
def lowNibble (b : Byte) : Fin 16 := (b.extractLsb' 0 4).toFin

/-- `zext_8` of a key number (R186). -/
def keyByte (k : KeyNo) : Byte := BitVec.ofNat 8 k.val

/-- The address of the glyph for the digit in a byte's low nibble: `5 × V[X][3:0]` (R142). -/
def glyphAddr (b : Byte) : Addr := BitVec.ofNat 12 (5 * (lowNibble b).val)

/-- `(I + V[X])[11:0]` (R141). -/
def indexPlus (a : Addr) (b : Byte) : Addr := BitVec.ofNat 12 (a.toNat + b.toNat)

/-- The base of a data access, over the integers from the 12-bit I (R146). -/
def State.base (s : State) : Nat := s.i.toNat

/-- The three decimal digits of a byte, hundreds first (R143). -/
def bcdDigits (b : Byte) : List Byte :=
  [BitVec.ofNat 8 (b.toNat / 100), BitVec.ofNat 8 (b.toNat / 10 % 10), BitVec.ofNat 8 (b.toNat % 10)]

/-- The values of `V[0]` to `V[x]`, in ascending order (R144). -/
def State.regsUpTo (s : State) (x : RegNo) : List Byte := s.v.toList.take (x.val + 1)

/-- Load `V[0]` to `V[x]` from a list of bytes, `V[k]` from the k-th; the others stay (R145). -/
def State.loadRegsUpTo (s : State) (x : RegNo) (bs : List Byte) : State :=
  { s with v := Vector.ofFn fun r : RegNo => if r.val ≤ x.val then bs.getD r.val 0 else s.v[r.val] }

/-- `env.keys[k] = 1`: key k is pressed in this step (R188). -/
def State.keyDown (s : State) (k : KeyNo) : Bool := s.port.env.keys.getLsbD k.val

end Sys2Proof.Machine
end

