-- ==== Sys2Proof/Machine/Flags.lean ====
section
/-! DEFINITION. The flag values written to VF, each exactly 0 or 1 (R13). -/

namespace Sys2Proof.Machine

/-- A flag as the byte 0x00 or 0x01 (R13). -/
def flagByte (c : Bool) : Byte := if c then 1 else 0

/-- Carry of 8XY4: the unsaturated sum exceeds 255 (R126). -/
def carryFlag (a b : Byte) : Byte := flagByte (255 < a.toNat + b.toNat)

/-- Not-borrow of 8XY5 and 8XY7: the minuend is strictly greater than the subtrahend (R127, R129). -/
def notBorrowFlag (minuend subtrahend : Byte) : Byte := flagByte (subtrahend.toNat < minuend.toNat)

/-- The bit that 8XY6 shifts out (R128). -/
def lsbFlag (a : Byte) : Byte := flagByte (a.getLsbD 0)

/-- The bit that 8XYE shifts out (R130). -/
def msbFlag (a : Byte) : Byte := flagByte (a.getLsbD 7)

end Sys2Proof.Machine
end

