-- ==== Sys2Proof/Machine/Alu.lean ====
section
/-! DEFINITION. Register load and ALU: 6XKK 7XKK 8XY0 to 8XY7 8XYE (spec/42_alu.md). Addition and
subtraction saturate (R131). Operands are read before anything is written (R87). -/

namespace Sys2Proof.Machine

/-- 6XKK LD (R120): `V[X] <- KK`. -/
def execLdVxKk (x : RegNo) (kk : Byte) (s : State) : Host.Outcome State Fault Refusal :=
  .next (s.setReg x kk)

/-- 7XKK ADD (R121): saturating, VF not written as a flag. -/
def execAddVxKk (x : RegNo) (kk : Byte) (s : State) : Host.Outcome State Fault Refusal :=
  .next (s.setReg x (satAdd8 (s.reg x) kk))

/-- 8XY0 LD (R122): copy. -/
def execLdVxVy (x y : RegNo) (s : State) : Host.Outcome State Fault Refusal :=
  .next (s.setReg x (s.reg y))

/-- 8XY1 OR (R123); VF untouched. -/
def execOrVxVy (x y : RegNo) (s : State) : Host.Outcome State Fault Refusal :=
  .next (s.setReg x (s.reg x ||| s.reg y))

/-- 8XY2 AND (R124); VF untouched. -/
def execAndVxVy (x y : RegNo) (s : State) : Host.Outcome State Fault Refusal :=
  .next (s.setReg x (s.reg x &&& s.reg y))

/-- 8XY3 XOR (R125); VF untouched. -/
def execXorVxVy (x y : RegNo) (s : State) : Host.Outcome State Fault Refusal :=
  .next (s.setReg x (s.reg x ^^^ s.reg y))

/-- 8XY4 ADD (R126): VF = carry, `V[X]` = the saturated sum. -/
def execAddVxVy (x y : RegNo) (s : State) : Host.Outcome State Fault Refusal :=
  .next (s.setFlagAndReg (carryFlag (s.reg x) (s.reg y)) x (satAdd8 (s.reg x) (s.reg y)))

/-- 8XY5 SUB (R127): VF = strict not-borrow of `V[X] - V[Y]`. -/
def execSub (x y : RegNo) (s : State) : Host.Outcome State Fault Refusal :=
  .next (s.setFlagAndReg (notBorrowFlag (s.reg x) (s.reg y)) x (satSub8 (s.reg x) (s.reg y)))

/-- 8XY6 SHR (R128): VF = bit 0; Y is unused. -/
def execShr (x _y : RegNo) (s : State) : Host.Outcome State Fault Refusal :=
  .next (s.setFlagAndReg (lsbFlag (s.reg x)) x (s.reg x >>> 1))

/-- 8XY7 SUBN (R129): VF = strict not-borrow of `V[Y] - V[X]`. -/
def execSubn (x y : RegNo) (s : State) : Host.Outcome State Fault Refusal :=
  .next (s.setFlagAndReg (notBorrowFlag (s.reg y) (s.reg x)) x (satSub8 (s.reg y) (s.reg x)))

/-- 8XYE SHL (R130): VF = bit 7, the result truncated; Y is unused. -/
def execShl (x _y : RegNo) (s : State) : Host.Outcome State Fault Refusal :=
  .next (s.setFlagAndReg (msbFlag (s.reg x)) x (s.reg x <<< 1))

end Sys2Proof.Machine
end

