-- ==== Sys2Proof/Machine/Compositor.lean ====
section
/-! DEFINITION. The sprite-XOR compositing unit (R160 to R163). -/

namespace Sys2Proof.Machine

/-- The display buffer: 32 rows of 64 pixels (R28). -/
abbrev Display := Vector PixelRow 32

/-- A cleared display (R164). -/
def blankDisplay : Display := Vector.replicate 32 0

/-- `RowMask(b, x) = rotr64(zext_64(b) << 56, x)`: the sprite byte at columns x to x + 7, wrapping to
column 0 of the same row (R161). -/
def rowMask (b : Byte) (x : Nat) : PixelRow := (b.setWidth 64 <<< 56).rotateRight x

/-- One sprite byte on one row: the row after the XOR, and whether a pixel was erased (R162). -/
def composeRow (row m : PixelRow) : PixelRow × Bool := (row ^^^ m, row &&& m != 0)

/-- One sprite row at display row `r`; a row past 31 is clipped: not drawn, no collision (R163). -/
def drawRow (d : Display) (r : Nat) (m : PixelRow) : Display × Bool :=
  if h : r < 32 then
    let (row, hit) := composeRow d[r] m
    (d.set r row h, hit)
  else (d, false)

/-- `draw_sprite(x, y, s)`: the sprite bytes on rows y, y + 1, …, and the OR of the collisions (R163). -/
def drawSprite (d : Display) (x y : Nat) : List Byte → Display × Bool
  | [] => (d, false)
  | b :: bs =>
    let (d', hit) := drawRow d y (rowMask b x)
    let (d'', hits) := drawSprite d' x (y + 1) bs
    (d'', hit || hits)

/-- The pixel at a column and a row (R28): bit `63 - c` of row r. -/
def pixel (d : Display) (c : Nat) (r : Fin 32) : Bool := d[r.val].getLsbD (63 - c)

end Sys2Proof.Machine
end

