-- ==== Sys2Proof/Machine/DisplayInstr.lean ====
section
/-! DEFINITION. The display instructions 00E0 and DXYN (spec/44_display.md). -/

namespace Sys2Proof.Machine

/-- 00E0 CLS (R164): all rows zero, VF untouched. -/
def execCls (s : State) : Host.Outcome State Fault Refusal :=
  .next (s.setDisp blankDisplay)

/-- Draw sprite bytes at a column and a row, and write the collision to VF (R165). -/
def State.drawAt (s : State) (x y : Nat) (bs : List Byte) : State :=
  let (d, hit) := drawSprite s.disp x y bs
  (s.setDisp d).setReg vf (flagByte hit)

/-- DXYN DRW (R165): N bytes from I at column `V[X] mod 64`, row `V[Y]`; all bytes are read and checked
before anything is drawn. -/
def execDrw (x y : RegNo) (n : Fin 16) (s : State) : Host.Outcome State Fault Refusal :=
  s.orRaise (match s.mem.readRange s.base n.val with
    | .ok bs => .ok (s.drawAt ((s.reg x).toNat % 64) (s.reg y).toNat bs)
    | .error f => .error f)

end Sys2Proof.Machine
end

