-- ==== Sys2Proof/Machine/Flow.lean ====
section
/-! DEFINITION. Control transfer: 00EE 1NNN 2NNN 3XKK 4XKK 5XY_ 9XY_ BNNN (spec/41_flow.md). The state a
meaning is given is the one the advance left (R86): `PC` is already the address of the next word. -/

namespace Sys2Proof.Machine

/-- 00EE RET (R100): pop the call stack into PC. -/
def execRet (s : State) : Host.Outcome State Fault Refusal :=
  s.orRaise (match s.pop with
    | .ok (a, t) => .ok (t.setPc a)
    | .error f => .error f)

/-- 1NNN JP (R101): `PC <- NNN`. -/
def execJp (nnn : Addr) (s : State) : Host.Outcome State Fault Refusal :=
  .next (s.setPc (zextAddr nnn))

/-- 2NNN CALL (R102): push the advanced PC, then `PC <- NNN`. -/
def execCall (nnn : Addr) (s : State) : Host.Outcome State Fault Refusal :=
  s.orRaise (match s.push s.pc with
    | .ok t => .ok (t.setPc (zextAddr nnn))
    | .error f => .error f)

/-- 3XKK SE (R103): skip if `V[X] = KK`. -/
def execSeVxKk (x : RegNo) (kk : Byte) (s : State) : Host.Outcome State Fault Refusal :=
  .next (s.skipIf (s.reg x == kk))

/-- 4XKK SNE (R104): skip if `V[X] ≠ KK`. -/
def execSneVxKk (x : RegNo) (kk : Byte) (s : State) : Host.Outcome State Fault Refusal :=
  .next (s.skipIf (s.reg x != kk))

/-- 5XY_ SE (R105): skip if `V[X] = V[Y]`. -/
def execSeVxVy (x y : RegNo) (s : State) : Host.Outcome State Fault Refusal :=
  .next (s.skipIf (s.reg x == s.reg y))

/-- 9XY_ SNE (R106): skip if `V[X] ≠ V[Y]`. -/
def execSneVxVy (x y : RegNo) (s : State) : Host.Outcome State Fault Refusal :=
  .next (s.skipIf (s.reg x != s.reg y))

/-- BNNN JP V0 (R107): `PC <- NNN + V[0]`, 16 bits, not wrapped. -/
def execJpV0 (nnn : Addr) (s : State) : Host.Outcome State Fault Refusal :=
  .next (s.setPc (zextAddr nnn + zextByte (s.reg 0)))

end Sys2Proof.Machine
end

