-- ==== Sys2Proof/Machine/IndexMemory.lean ====
section
/-! DEFINITION. The index register and memory: ANNN FX1E FX29 FX33 FX55 FX65 (spec/43_index_memory.md).
I is not changed by a memory access (R146); a fault leaves no partial effect (R147). -/

namespace Sys2Proof.Machine

/-- ANNN LD I (R140). -/
def execLdINnn (nnn : Addr) (s : State) : Host.Outcome State Fault Refusal :=
  .next (s.setI nnn)

/-- FX1E ADD I, Vx (R141): modulo 4096, VF untouched. -/
def execAddIVx (x : RegNo) (s : State) : Host.Outcome State Fault Refusal :=
  .next (s.setI (indexPlus s.i (s.reg x)))

/-- FX29 LD F, Vx (R142): the glyph address of the low nibble. -/
def execLdFVx (x : RegNo) (s : State) : Host.Outcome State Fault Refusal :=
  .next (s.setI (glyphAddr (s.reg x)))

/-- Store a list of bytes from `I` on, or raise AddressOutOfRange with nothing stored (R147). -/
def State.storeAtI (s : State) (bs : List Byte) : Host.Outcome State Fault Refusal :=
  s.orRaise (match s.mem.writeRange s.base bs with
    | .ok m => .ok (s.setMem m)
    | .error f => .error f)

/-- FX33 LD B, Vx (R143): the BCD digits at I, I + 1, I + 2. -/
def execLdBVx (x : RegNo) (s : State) : Host.Outcome State Fault Refusal :=
  s.storeAtI (bcdDigits (s.reg x))

/-- FX55 LD [I], Vx (R144): `V[0]` to `V[X]` at I and up. -/
def execLdMiVx (x : RegNo) (s : State) : Host.Outcome State Fault Refusal :=
  s.storeAtI (s.regsUpTo x)

/-- FX65 LD Vx, [I] (R145): `V[0]` to `V[X]` from I and up. -/
def execLdVxMi (x : RegNo) (s : State) : Host.Outcome State Fault Refusal :=
  s.orRaise (match s.mem.readRange s.base (x.val + 1) with
    | .ok bs => .ok (s.loadRegsUpTo x bs)
    | .error f => .error f)

end Sys2Proof.Machine
end

