-- ==== Sys2Proof/Machine/TimerKeyRandom.lean ====
section
/-! DEFINITION. Timers, keypad, random: FX07 FX15 FX18 EX9E EXA1 FX0A CXKK
(spec/45_timer_key_random.md). `s.port.env` is the input record of the step (R89). -/

namespace Sys2Proof.Machine

/-- FX07 LD Vx, DT (R180). -/
def execLdVxDt (x : RegNo) (s : State) : Host.Outcome State Fault Refusal :=
  .next (s.setReg x s.dt)

/-- FX15 LD DT, Vx (R181). -/
def execLdDtVx (x : RegNo) (s : State) : Host.Outcome State Fault Refusal :=
  .next (s.setDt (s.reg x))

/-- FX18 LD ST, Vx (R182). -/
def execLdStVx (x : RegNo) (s : State) : Host.Outcome State Fault Refusal :=
  .next (s.setSt (s.reg x))

/-- EX9E SKP (R184): skip if key `V[X][3:0]` is pressed. -/
def execSkp (x : RegNo) (s : State) : Host.Outcome State Fault Refusal :=
  .next (s.skipIf (s.keyDown (lowNibble (s.reg x))))

/-- EXA1 SKNP (R185): skip if key `V[X][3:0]` is not pressed. -/
def execSknp (x : RegNo) (s : State) : Host.Outcome State Fault Refusal :=
  .next (s.skipIf (!s.keyDown (lowNibble (s.reg x))))

/-- FX0A LD Vx, K (R186): store the pressed key, or go back to the fetch address and retry. -/
def execLdVxK (x : RegNo) (s : State) : Host.Outcome State Fault Refusal :=
  .next (match s.port.env.poll with
    | some k => s.setReg x (keyByte k)
    | none => s.setPc s.port.insnAddr)

/-- CXKK RND (R187): `V[X] <- env.rnd AND KK`. -/
def execRnd (x : RegNo) (kk : Byte) (s : State) : Host.Outcome State Fault Refusal :=
  .next (s.setReg x (s.port.env.rnd &&& kk))

end Sys2Proof.Machine
end

