-- ==== Sys2Proof/Machine/Dispatch.lean ====
section
/-! DEFINITION. One arm per instruction (R65), each one call of its meaning. The state is the one the
advance left (R81 phase 4, R86). -/

namespace Sys2Proof.Machine

/-- Execute a decoded instruction. -/
def exec (i : Instr) (s : State) : Host.Outcome State Fault Refusal :=
  match i with
  | .cls => Sys2Proof.Machine.execCls s
  | .ret => Sys2Proof.Machine.execRet s
  | .jp nnn => Sys2Proof.Machine.execJp nnn s
  | .call nnn => Sys2Proof.Machine.execCall nnn s
  | .seVxKk x kk => Sys2Proof.Machine.execSeVxKk x kk s
  | .sneVxKk x kk => Sys2Proof.Machine.execSneVxKk x kk s
  | .seVxVy x y => Sys2Proof.Machine.execSeVxVy x y s
  | .ldVxKk x kk => Sys2Proof.Machine.execLdVxKk x kk s
  | .addVxKk x kk => Sys2Proof.Machine.execAddVxKk x kk s
  | .ldVxVy x y => Sys2Proof.Machine.execLdVxVy x y s
  | .orVxVy x y => Sys2Proof.Machine.execOrVxVy x y s
  | .andVxVy x y => Sys2Proof.Machine.execAndVxVy x y s
  | .xorVxVy x y => Sys2Proof.Machine.execXorVxVy x y s
  | .addVxVy x y => Sys2Proof.Machine.execAddVxVy x y s
  | .sub x y => Sys2Proof.Machine.execSub x y s
  | .shr x y => Sys2Proof.Machine.execShr x y s
  | .subn x y => Sys2Proof.Machine.execSubn x y s
  | .shl x y => Sys2Proof.Machine.execShl x y s
  | .sneVxVy x y => Sys2Proof.Machine.execSneVxVy x y s
  | .ldINnn nnn => Sys2Proof.Machine.execLdINnn nnn s
  | .jpV0 nnn => Sys2Proof.Machine.execJpV0 nnn s
  | .rnd x kk => Sys2Proof.Machine.execRnd x kk s
  | .drw x y n => Sys2Proof.Machine.execDrw x y n s
  | .skp x => Sys2Proof.Machine.execSkp x s
  | .sknp x => Sys2Proof.Machine.execSknp x s
  | .ldVxDt x => Sys2Proof.Machine.execLdVxDt x s
  | .ldVxK x => Sys2Proof.Machine.execLdVxK x s
  | .ldDtVx x => Sys2Proof.Machine.execLdDtVx x s
  | .ldStVx x => Sys2Proof.Machine.execLdStVx x s
  | .addIVx x => Sys2Proof.Machine.execAddIVx x s
  | .ldFVx x => Sys2Proof.Machine.execLdFVx x s
  | .ldBVx x => Sys2Proof.Machine.execLdBVx x s
  | .ldMiVx x => Sys2Proof.Machine.execLdMiVx x s
  | .ldVxMi x => Sys2Proof.Machine.execLdVxMi x s

end Sys2Proof.Machine
end

