-- ==== Sys2Proof/Machine/Engine.lean ====
section
/-! DEFINITION. The Engine's step event (R81) and the other four events of R240. -/

namespace Sys2Proof.Machine

/-- Phases 1 to 5 of R81 with the input record already presented: halted check, fetch, advance, decode,
execute. -/
def engineStep (s : State) : Host.Outcome State Fault Refusal :=
  if s.halt then .next (s.setReport (.fatal s.fault .latched))
  else
    match s.fetch with
    | .error f => .next (s.beginStep.raise f (.fetch s.pc))
    | .ok op =>
      match decodeOp op with
      | .error _ => .next ((s.beginStep.holdOp op).advance.setReport (.invalid s.pc op))
      | .ok i => exec i (s.beginStep.holdOp op).advance

/-- The step event with its input record (R80, R89). -/
def stepEvent (e : Env) (s : State) : Host.Outcome State Fault Refusal := engineStep (s.presentEnv e)

/-- The load_program event (R232, R233): refused with the latched code while halted; refused by the model
outside its window (log 8); ProgramTooLarge beyond 3584 bytes; else the bytes stand at 0x200 and up. -/
def loadProgram (bytes : List Byte) (s : State) : Host.Outcome State Fault Refusal :=
  if s.halt then .next (s.setReport (.fatal s.fault .latched))
  else if s.port.loadOpen = false then .refused .loadAfterStart
  else if imageFits bytes then
    .next { s with
      mem := s.mem.putAll Config.progBase bytes
      port := { s.port with report := .ok, loadOpen := false } }
  else .next (s.raise .programTooLarge (.load bytes.length))

/-- The reset event issued to a running machine (R230, D1): the reset state for this machine's FONT. What
the surroundings will do next is theirs, so the schedule and the draw counter stay (log 13). -/
def State.resetEvent (s : State) : State :=
  { State.powerOn s.mem.font with
    port := { Port.reset with pending := s.port.pending, draws := s.port.draws } }

/-- What the outside can read between events (R166, R190, R240). -/
structure Snapshot where
  rows  : Vector PixelRow 32
  dt    : Byte
  st    : Byte
  halt  : Bool
  fault : BitVec 3
  deriving DecidableEq, Repr

/-- The snapshot event's answer (R166); it changes nothing. -/
def State.snapshot (s : State) : Snapshot :=
  { rows := s.disp, dt := s.dt, st := s.st, halt := s.halt, fault := s.fault }

/-- The five events of R240. -/
inductive Event
  /-- R230 -/
  | reset
  /-- R232 -/
  | loadProgram (bytes : List Byte)
  /-- R81 -/
  | step (env : Env)
  /-- R183 -/
  | tick
  /-- R166 -/
  | snapshot
  deriving DecidableEq, Repr

/-- One event, atomic (R50, R240). -/
def Event.deliver (e : Event) (s : State) : Host.Outcome State Fault Refusal :=
  match e with
  | .reset => .next s.resetEvent
  | .loadProgram bytes => Sys2Proof.Machine.loadProgram bytes s
  | .step env => stepEvent env s
  | .tick => .next s.tick
  | .snapshot => .next s

/-- Events one after another, each completing before the next starts (R236). -/
def deliverAll : List Event → State → Host.Outcome State Fault Refusal
  | [], s => .next s
  | e :: es, s =>
    match e.deliver s with
    | .next t => deliverAll es t
    | .fault f => .fault f
    | .refused r => .refused r

/-- The surroundings' stimulus, then the Engine's step (log 1, log 2). -/
def stimulatedStep (s : State) : Host.Outcome State Fault Refusal := engineStep s.arrive

/-- Where a word must stand to be fetched next: PC, or 0x200 where no word can be fetched at PC (R83). -/
def fetchPlace (s : State) : Word := if s.pc.toNat < 4095 then s.pc else Config.resetPc

/-- Store a word where the next step fetches it (log 9). A halted machine fetches nothing, so the latch is
cleared; a PC at which no fetch can succeed is set to 0x200. -/
def State.placeWord (s : State) (op : Word) : State :=
  { s with
    pc := fetchPlace s
    mem := (s.mem.put (fetchPlace s).toNat (hiByte op)).put ((fetchPlace s).toNat + 1) (loByte op)
    halt := false
    fault := if s.halt then 0 else s.fault }

end Sys2Proof.Machine
end

