-- ==== Sys2Proof/Machine/Step.lean ====
section
/-! DEFINITION. One step of the machine: what the surroundings do, then one step event (R81, R241). -/

namespace Sys2Proof.Machine

/-- One step: the ticks and the input record of the next stimulus, then the Engine's step. -/
def step (s : State) : Host.Outcome State Fault Refusal := stimulatedStep s

/-- The state with a table word of `nbits` bits stored where `step` fetches its next instruction,
big-endian (R42; log 9). -/
def State.withFetchWord (s : State) (nbits w : Nat) : State :=
  s.placeWord (BitVec.ofNat 16 (w % 2 ^ nbits))

end Sys2Proof.Machine
end

