-- ==== Sys2Proof/Safety.lean ====
section
/-! DEFINITION. What claims about runs use: the machine's invariant, a fault-free run, and the premise on
the keypad that the spec calls natural. -/

namespace Sys2Proof.Safety

open Sys2Proof.Machine

/-- The latch is consistent: `HALT = 0` with `FAULT = 0`, or `HALT = 1` with the code of a fatal fault, 2
to 5 (R23, R201, R207). -/
def LatchOk (s : State) : Prop :=
  (s.halt = false ∧ s.fault = 0) ∨ (s.halt = true ∧ 2 ≤ s.fault.toNat ∧ s.fault.toNat ≤ 5)

/-- `PC` never exceeds 0x10FE (R16). -/
def PcOk (s : State) : Prop := s.pc.toNat ≤ 0x10FE

/-- Every call-stack entry is a return address 2NNN can push, at most 0x0FFF (R100). -/
def StackOk (s : State) : Prop := ∀ k : Fin 16, s.stack[k.val].toNat ≤ 0x0FFF

/-- The invariant of the machine: canonical memory, a consistent latch, PC and the stack in range. -/
structure Inv (s : State) : Prop where
  mem   : s.mem.wf = true
  latch : LatchOk s
  pc    : PcOk s
  stack : StackOk s

/-- The keypad premise the core does not check (R188, D25): no key is answered iff none is pressed, and an
answered key is pressed. No statement assumes it. -/
def KeypadNatural (e : Env) : Prop :=
  (e.poll = none ↔ e.keys = 0) ∧ ∀ k, e.poll = some k → e.keys.getLsbD k.val = true

/-- A run of `k` steps from `s` on which no fatal fault happens: after each of them `HALT` is 0. -/
def FaultFree : Nat → State → Prop
  | 0, s => s.halt = false
  | k + 1, s => s.halt = false ∧ ∃ t, step s = .next t ∧ FaultFree k t

end Sys2Proof.Safety
end

