-- ==== Sys2Proof/Certificates/Slice0/Obligations.lean ====
section
/-! DEFINITION. The statements about the machine. Those of basis 'stated' formalise a numbered rule; in
those of basis 'derived' the docstring names what the spec marks as its own decision (D<n>) or what is the
model's choice (log <n>). That an instruction writes nothing its rule does not name is the spec's
closed-world reading (R86, D33): every frame clause below rests on it. `s.port` is the model's event interface (log 1, 6, 7, 8), not state of the spec. -/

namespace Sys2Proof.Claims

open Sys2Proof Sys2Proof.Machine

/-! ### Vocabulary -/

/-- Every word of a row of R65 decodes to this instruction, whatever its other bits. -/
def RowMeans (mask pattern : Word) (f : Word → Instr) : Prop :=
  ∀ op : Word, op &&& mask = pattern → decodeOp op = .ok (f op)

/-- `X = op[11:8]` (R61). -/
def fieldX (op : Word) : RegNo := (op.extractLsb' 8 4).toFin
/-- `Y = op[7:4]` (R61). -/
def fieldY (op : Word) : RegNo := (op.extractLsb' 4 4).toFin
/-- `N = op[3:0]` (R61). -/
def fieldN (op : Word) : Fin 16 := (op.extractLsb' 0 4).toFin
/-- `KK = op[7:0]` (R61). -/
def fieldKK (op : Word) : Byte := op.extractLsb' 0 8
/-- `NNN = op[11:0]` (R61). -/
def fieldNNN (op : Word) : Addr := op.extractLsb' 0 12

/-- The two states hold the same byte at every address. -/
def SameBytes (s t : State) : Prop := ∀ a, t.mem.byte a = s.mem.byte a

/-- Frame: nothing changed but general registers. -/
def OnlyRegs (s t : State) : Prop := t = { s with v := t.v } ∧ SameBytes s t

/-- Frame: nothing changed but PC. -/
def OnlyPc (s t : State) : Prop := t = { s with pc := t.pc } ∧ SameBytes s t

/-- Frame: nothing changed but bytes of memory. -/
def OnlyMem (s t : State) : Prop := t = { s with mem := t.mem } ∧ t.mem.font = s.mem.font

/-- `s` after an instruction raised a fatal fault: the latch and the report, and nothing else (R207: PC
keeps the advanced value, D20, D21). -/
def Faulted (s : State) (code : BitVec 3) : State :=
  { s with
    halt := true
    fault := code
    port := { s.port with report := .fatal code (.insn s.port.insnAddr s.port.op) } }

/-- PC after the advance (R84). -/
def advanced (pc : Word) : Word := if 4096 ≤ pc.toNat + 2 then 0 else BitVec.ofNat 16 (pc.toNat + 2)

/-- The word at PC, high byte first (R42). -/
def wordAt (s : State) : Word := s.mem.byte s.pc.toNat ++ s.mem.byte (s.pc.toNat + 1)

/-- Whether the N-byte sprite at `base` drawn at column x, row y has its pixel on at column c, row r: bit
`7 - j` of byte `r - y`, where column c lies j columns right of x around the edge (R160, R161, R163). -/
def spriteOn (m : Memory) (base n x y c r : Nat) : Bool :=
  decide (y ≤ r ∧ r < y + n ∧ (c + 64 - x) % 64 < 8) &&
    (m.byte (base + (r - y))).getLsbD (7 - (c + 64 - x) % 64)

end Sys2Proof.Claims

open Sys2Proof Sys2Proof.Machine Sys2Proof.Claims

/-! ### Control transfer (spec/41_flow.md) -/

/-- R101: every word 1NNN is the jump, and it writes NNN zero-extended to PC and nothing else (D33). -/
def Obligations.JumpLoadsTarget : Prop :=
  RowMeans 0xF000 0x1000 (fun op => .jp (fieldNNN op)) ∧
  ∀ nnn s, exec (.jp nnn) s = .next { s with pc := nnn.setWidth 16 }

/-- R102, R203: CALL pushes the advanced PC and jumps; with 16 entries in use it raises StackOverflow. The
count SP is D3, the latch and PC on the fault are D20 and D21; the report field is log 6. -/
def Obligations.CallPushesReturnAddress : Prop :=
  RowMeans 0xF000 0x2000 (fun op => .call (fieldNNN op)) ∧
  ∀ nnn s, ∃ t, exec (.call nnn) s = .next t ∧
    (s.sp.val < 16 →
      t.pc = nnn.setWidth 16 ∧ t.sp.val = s.sp.val + 1 ∧
      (∀ k : Fin 16, t.stack[k.val] = if k.val = s.sp.val then s.pc else s.stack[k.val]) ∧
      t = { s with pc := t.pc, sp := t.sp, stack := t.stack } ∧ SameBytes s t) ∧
    (s.sp.val = 16 → t = Faulted s 2)

/-- R100, R204: RET pops the top entry into PC; with no entry in use it raises StackUnderflow. The ignored
nibble is D7, the count D3, the latch D20, D21; the report field is log 6. -/
def Obligations.ReturnPopsIntoPc : Prop :=
  RowMeans 0xF0FF 0x00EE (fun _ => .ret) ∧
  ∀ s, ∃ t, exec .ret s = .next t ∧
    (∀ k : Fin 16, s.sp.val = k.val + 1 →
      t.pc = s.stack[k.val] ∧ t.sp.val = k.val ∧
      t = { s with pc := t.pc, sp := t.sp } ∧ SameBytes s t) ∧
    (s.sp.val = 0 → t = Faulted s 3)

/-- R103, R104: the skips on an immediate add 2 to the advanced PC without a wrap (D5), or change nothing;
no other state changes (D33). -/
def Obligations.SkipOnImmediate : Prop :=
  RowMeans 0xF000 0x3000 (fun op => .seVxKk (fieldX op) (fieldKK op)) ∧
  RowMeans 0xF000 0x4000 (fun op => .sneVxKk (fieldX op) (fieldKK op)) ∧
  ∀ x kk s,
    exec (.seVxKk x kk) s = .next { s with pc := if s.reg x = kk then s.pc + 2 else s.pc } ∧
    exec (.sneVxKk x kk) s = .next { s with pc := if s.reg x = kk then s.pc else s.pc + 2 }

/-- R105, R106: the skips on two registers; the low nibble of the word is ignored by D8, the sum is not
wrapped by D5, no other state changes by D33. -/
def Obligations.SkipOnRegisters : Prop :=
  RowMeans 0xF000 0x5000 (fun op => .seVxVy (fieldX op) (fieldY op)) ∧
  RowMeans 0xF000 0x9000 (fun op => .sneVxVy (fieldX op) (fieldY op)) ∧
  ∀ x y s,
    exec (.seVxVy x y) s = .next { s with pc := if s.reg x = s.reg y then s.pc + 2 else s.pc } ∧
    exec (.sneVxVy x y) s = .next { s with pc := if s.reg x = s.reg y then s.pc else s.pc + 2 }

/-- R107: PC becomes the sum of NNN and V0 over the integers, not reduced and not wrapped (D5). -/
def Obligations.JumpPlusV0 : Prop :=
  RowMeans 0xF000 0xB000 (fun op => .jpV0 (fieldNNN op)) ∧
  ∀ nnn s, ∃ t, exec (.jpV0 nnn) s = .next t ∧
    t.pc.toNat = nnn.toNat + (s.reg 0).toNat ∧ OnlyPc s t

/-! ### ALU (spec/42_alu.md) -/

/-- R120: 6XKK writes KK to `V[X]`; like every ALU instruction it touches only the V registers and leaves PC
at the advanced value (42_alu.md). -/
def Obligations.LoadImmediate : Prop :=
  RowMeans 0xF000 0x6000 (fun op => .ldVxKk (fieldX op) (fieldKK op)) ∧
  ∀ x kk s, ∃ t, exec (.ldVxKk x kk) s = .next t ∧
    (∀ r, t.reg r = if r = x then kk else s.reg r) ∧ OnlyRegs s t

/-- R121: 7XKK saturates at 255 and writes no flag; it touches only the V registers (42_alu.md). -/
def Obligations.AddImmediateSaturates : Prop :=
  RowMeans 0xF000 0x7000 (fun op => .addVxKk (fieldX op) (fieldKK op)) ∧
  ∀ x kk s, ∃ t, exec (.addVxKk x kk) s = .next t ∧
    (t.reg x).toNat = min ((s.reg x).toNat + kk.toNat) 255 ∧
    (∀ r, t.reg r = if r = x then t.reg x else s.reg r) ∧ OnlyRegs s t

/-- R122: 8XY0 copies `V[Y]` to `V[X]`; it touches only the V registers (42_alu.md). -/
def Obligations.CopyRegister : Prop :=
  RowMeans 0xF00F 0x8000 (fun op => .ldVxVy (fieldX op) (fieldY op)) ∧
  ∀ x y s, ∃ t, exec (.ldVxVy x y) s = .next t ∧
    (∀ r, t.reg r = if r = x then s.reg y else s.reg r) ∧ OnlyRegs s t

/-- R123, R124, R125: OR, AND, XOR, bit by bit; VF is not written, by the closed-world reading D33. -/
def Obligations.BitwiseOperations : Prop :=
  RowMeans 0xF00F 0x8001 (fun op => .orVxVy (fieldX op) (fieldY op)) ∧
  RowMeans 0xF00F 0x8002 (fun op => .andVxVy (fieldX op) (fieldY op)) ∧
  RowMeans 0xF00F 0x8003 (fun op => .xorVxVy (fieldX op) (fieldY op)) ∧
  ∀ x y s,
    (∃ t, exec (.orVxVy x y) s = .next t ∧
      (∀ b, b < 8 → (t.reg x).getLsbD b = ((s.reg x).getLsbD b || (s.reg y).getLsbD b)) ∧
      (∀ r, t.reg r = if r = x then t.reg x else s.reg r) ∧ OnlyRegs s t) ∧
    (∃ t, exec (.andVxVy x y) s = .next t ∧
      (∀ b, b < 8 → (t.reg x).getLsbD b = ((s.reg x).getLsbD b && (s.reg y).getLsbD b)) ∧
      (∀ r, t.reg r = if r = x then t.reg x else s.reg r) ∧ OnlyRegs s t) ∧
    (∃ t, exec (.xorVxVy x y) s = .next t ∧
      (∀ b, b < 8 → (t.reg x).getLsbD b = Bool.xor ((s.reg x).getLsbD b) ((s.reg y).getLsbD b)) ∧
      (∀ r, t.reg r = if r = x then t.reg x else s.reg r) ∧ OnlyRegs s t)

/-- R126, R14: 8XY4 writes the carry to VF and the saturated sum to `V[X]`, both from the old values; with
X = 15 the sum survives (D9). -/
def Obligations.AddRegistersWithCarry : Prop :=
  RowMeans 0xF00F 0x8004 (fun op => .addVxVy (fieldX op) (fieldY op)) ∧
  ∀ x y s, ∃ t, exec (.addVxVy x y) s = .next t ∧
    (t.reg x).toNat = min ((s.reg x).toNat + (s.reg y).toNat) 255 ∧
    (x ≠ 15 → t.reg 15 = if 255 < (s.reg x).toNat + (s.reg y).toNat then 1 else 0) ∧
    (∀ r, r ≠ x → r ≠ 15 → t.reg r = s.reg r) ∧ OnlyRegs s t

/-- R127, R129, R14: the subtractions floor at 0 and set VF iff the minuend is strictly greater; the
destination is `V[X]` in both; with X = 15 the difference survives (D9). -/
def Obligations.SubtractionsWithNotBorrow : Prop :=
  RowMeans 0xF00F 0x8005 (fun op => .sub (fieldX op) (fieldY op)) ∧
  RowMeans 0xF00F 0x8007 (fun op => .subn (fieldX op) (fieldY op)) ∧
  ∀ x y s,
    (∃ t, exec (.sub x y) s = .next t ∧
      (t.reg x).toNat = (s.reg x).toNat - (s.reg y).toNat ∧
      (x ≠ 15 → t.reg 15 = if (s.reg y).toNat < (s.reg x).toNat then 1 else 0) ∧
      (∀ r, r ≠ x → r ≠ 15 → t.reg r = s.reg r) ∧ OnlyRegs s t) ∧
    (∃ t, exec (.subn x y) s = .next t ∧
      (t.reg x).toNat = (s.reg y).toNat - (s.reg x).toNat ∧
      (x ≠ 15 → t.reg 15 = if (s.reg x).toNat < (s.reg y).toNat then 1 else 0) ∧
      (∀ r, r ≠ x → r ≠ 15 → t.reg r = s.reg r) ∧ OnlyRegs s t)

/-- R128, R130, R14: the shifts by one place of `V[X]`; Y is decoded and unused; VF receives the bit shifted
out; with X = 15 the shifted value survives (D9). -/
def Obligations.ShiftsByOne : Prop :=
  RowMeans 0xF00F 0x8006 (fun op => .shr (fieldX op) (fieldY op)) ∧
  RowMeans 0xF00F 0x800E (fun op => .shl (fieldX op) (fieldY op)) ∧
  ∀ x y s,
    (∃ t, exec (.shr x y) s = .next t ∧
      (t.reg x).toNat = (s.reg x).toNat / 2 ∧
      (x ≠ 15 → (t.reg 15).toNat = (s.reg x).toNat % 2) ∧
      (∀ r, r ≠ x → r ≠ 15 → t.reg r = s.reg r) ∧ OnlyRegs s t) ∧
    (∃ t, exec (.shl x y) s = .next t ∧
      (t.reg x).toNat = 2 * (s.reg x).toNat % 256 ∧
      (x ≠ 15 → (t.reg 15).toNat = (s.reg x).toNat / 128) ∧
      (∀ r, r ≠ x → r ≠ 15 → t.reg r = s.reg r) ∧ OnlyRegs s t)

/-! ### Index register and memory (spec/43_index_memory.md) -/

/-- R140: ANNN writes NNN to I and nothing else (D33). -/
def Obligations.LoadIndex : Prop :=
  RowMeans 0xF000 0xA000 (fun op => .ldINnn (fieldNNN op)) ∧
  ∀ nnn s, exec (.ldINnn nnn) s = .next { s with i := nnn }

/-- R141: FX1E adds modulo 4096 and sets no flag; no other state changes (D33). -/
def Obligations.AddToIndexModulo4096 : Prop :=
  RowMeans 0xF0FF 0xF01E (fun op => .addIVx (fieldX op)) ∧
  ∀ x s, ∃ t, exec (.addIVx x) s = .next t ∧
    t.i.toNat = (s.i.toNat + (s.reg x).toNat) % 4096 ∧
    t = { s with i := t.i } ∧ SameBytes s t

/-- R142: FX29 writes five times the low nibble of `V[X]` to I and nothing else (D33); the low nibble is D13. -/
def Obligations.GlyphAddress : Prop :=
  RowMeans 0xF0FF 0xF029 (fun op => .ldFVx (fieldX op)) ∧
  ∀ x s, ∃ t, exec (.ldFVx x) s = .next t ∧
    t.i.toNat = 5 * ((s.reg x).toNat % 16) ∧
    t = { s with i := t.i } ∧ SameBytes s t

/-- R143, R147: FX33 stores hundreds, tens and ones at I, I + 1, I + 2 (order by D15), leaves every other
byte and I alone, and raises AddressOutOfRange with nothing stored when the range leaves memory (D17, D18).
Memory in canonical form is the invariant `Memory.wf`. -/
def Obligations.StoreDecimalDigits : Prop :=
  RowMeans 0xF0FF 0xF033 (fun op => .ldBVx (fieldX op)) ∧
  ∀ x s, s.mem.wf = true → ∃ t, exec (.ldBVx x) s = .next t ∧
    (s.base + 2 < 4096 →
      (t.mem.byte s.base).toNat = (s.reg x).toNat / 100 ∧
      (t.mem.byte (s.base + 1)).toNat = (s.reg x).toNat / 10 % 10 ∧
      (t.mem.byte (s.base + 2)).toNat = (s.reg x).toNat % 10 ∧
      (∀ a, a < s.base ∨ s.base + 2 < a → t.mem.byte a = s.mem.byte a) ∧ OnlyMem s t) ∧
    (4096 ≤ s.base + 2 → t = Faulted s 4)

/-- R144, R147: FX55 stores `V[0]` to `V[X]` at I and up, leaves every other byte and I alone (D16), and
raises AddressOutOfRange with nothing stored when the range leaves memory (D17, D18). -/
def Obligations.StoreRegisters : Prop :=
  RowMeans 0xF0FF 0xF055 (fun op => .ldMiVx (fieldX op)) ∧
  ∀ x s, s.mem.wf = true → ∃ t, exec (.ldMiVx x) s = .next t ∧
    (s.base + x.val < 4096 →
      (∀ r : RegNo, r.val ≤ x.val → t.mem.byte (s.base + r.val) = s.reg r) ∧
      (∀ a, a < s.base ∨ s.base + x.val < a → t.mem.byte a = s.mem.byte a) ∧ OnlyMem s t) ∧
    (4096 ≤ s.base + x.val → t = Faulted s 4)

/-- R145, R147: FX65 loads `V[0]` to `V[X]` from I and up, leaves the other registers and I alone (D16), and
raises AddressOutOfRange with nothing loaded when the range leaves memory (D18). -/
def Obligations.LoadRegisters : Prop :=
  RowMeans 0xF0FF 0xF065 (fun op => .ldVxMi (fieldX op)) ∧
  ∀ x s, ∃ t, exec (.ldVxMi x) s = .next t ∧
    (s.base + x.val < 4096 →
      (∀ r : RegNo, t.reg r = if r.val ≤ x.val then s.mem.byte (s.base + r.val) else s.reg r) ∧
      OnlyRegs s t) ∧
    (4096 ≤ s.base + x.val → t = Faulted s 4)

/-! ### Display (spec/44_display.md) -/

/-- R164: 00E0 clears all 32 rows and nothing else; the ignored nibble is D7. -/
def Obligations.ClearDisplay : Prop :=
  RowMeans 0xF0FF 0x00E0 (fun _ => .cls) ∧
  ∀ s, ∃ t, exec .cls s = .next t ∧ (∀ r : Fin 32, t.disp[r.val] = 0) ∧
    t = { s with disp := t.disp } ∧ SameBytes s t

/-- R165, R160, R163: DXYN toggles exactly the sprite's pixels, wrapping horizontally and clipping at the
bottom, and writes to VF whether a pixel was erased. Column mod 64 is D10, rows not reduced and clipped D11,
N = 0 D12, the fault with nothing drawn D18. -/
def Obligations.DrawTogglesSpritePixels : Prop :=
  RowMeans 0xF000 0xD000 (fun op => .drw (fieldX op) (fieldY op) (fieldN op)) ∧
  ∀ x y n s, ∃ t, exec (.drw x y n) s = .next t ∧
    (n.val = 0 ∨ s.base + n.val - 1 < 4096 →
      (∀ c r, c < 64 → pixel t.disp c r = Bool.xor (pixel s.disp c r)
        (spriteOn s.mem s.base n.val ((s.reg x).toNat % 64) (s.reg y).toNat c r.val)) ∧
      (t.reg 15 = 0 ∨ t.reg 15 = 1) ∧
      (t.reg 15 = 1 ↔ ∃ c r, c < 64 ∧ pixel s.disp c r = true ∧
        spriteOn s.mem s.base n.val ((s.reg x).toNat % 64) (s.reg y).toNat c r.val = true) ∧
      (∀ r, r ≠ 15 → t.reg r = s.reg r) ∧
      t = { s with v := t.v, disp := t.disp } ∧ SameBytes s t) ∧
    (1 ≤ n.val ∧ 4096 ≤ s.base + n.val - 1 → t = Faulted s 4)

/-- R161: RowMask puts bit `7 - j` of the byte at column `(x + j) mod 64`, and equals the source's shift and
its split in two parts (that the forms agree the spec derives). -/
def Obligations.RowMaskPlacesEightColumns : Prop :=
  (∀ (b : Byte) (x c : Nat), x < 64 → c < 64 → (rowMask b x).getLsbD (63 - c) =
    (decide ((c + 64 - x) % 64 < 8) && b.getLsbD (7 - (c + 64 - x) % 64))) ∧
  (∀ (b : Byte) (x : Nat), x ≤ 56 → rowMask b x = b.setWidth 64 <<< (56 - x)) ∧
  (∀ (b : Byte) (k : Nat), 1 ≤ k → k ≤ 7 → rowMask b (56 + k) =
    ((b >>> k).setWidth 64 ||| (b &&& BitVec.ofNat 8 (2 ^ k - 1)).setWidth 64 <<< (64 - k)))

/-- R168: drawing the same sprite twice restores the display; the second draw collides iff the first turned
a pixel on; and a byte drawn at column 60 wraps into columns 0 to 3. -/
def Obligations.DrawTwiceRestoresDisplay : Prop :=
  (∀ (d : Display) (x y : Nat) (bs : List Byte), x < 64 →
    (drawSprite (drawSprite d x y bs).1 x y bs).1 = d ∧
    ((drawSprite (drawSprite d x y bs).1 x y bs).2 = true ↔
      ∃ c r, c < 64 ∧ pixel d c r = false ∧ pixel (drawSprite d x y bs).1 c r = true)) ∧
  (∀ (b : Byte) (r : Fin 32) (c : Nat), c < 64 →
    pixel (drawSprite (Vector.replicate 32 0) 60 r.val [b]).1 c r =
      if 60 ≤ c then b.getLsbD (7 - (c - 60)) else if c < 4 then b.getLsbD (3 - c) else false)

/-! ### Timers, keypad, random (spec/45_timer_key_random.md) -/

/-- R180: FX07 copies DT to `V[X]`; no other state changes (D33). -/
def Obligations.ReadDelayTimer : Prop :=
  RowMeans 0xF0FF 0xF007 (fun op => .ldVxDt (fieldX op)) ∧
  ∀ x s, ∃ t, exec (.ldVxDt x) s = .next t ∧
    (∀ r, t.reg r = if r = x then s.dt else s.reg r) ∧ OnlyRegs s t

/-- R181, R182: FX15 and FX18 write `V[X]` to DT and to ST, and nothing else (D33). -/
def Obligations.WriteTimers : Prop :=
  RowMeans 0xF0FF 0xF015 (fun op => .ldDtVx (fieldX op)) ∧
  RowMeans 0xF0FF 0xF018 (fun op => .ldStVx (fieldX op)) ∧
  ∀ x s,
    exec (.ldDtVx x) s = .next { s with dt := s.reg x } ∧
    exec (.ldStVx x) s = .next { s with st := s.reg x }

/-- R183: a tick takes 1 from each timer that is not zero and changes nothing else, halted or not (D24). -/
def Obligations.TickDecrementsTimers : Prop :=
  ∀ s, ∃ t, Event.deliver .tick s = .next t ∧
    t.dt.toNat = s.dt.toNat - 1 ∧ t.st.toNat = s.st.toNat - 1 ∧
    t = { s with dt := t.dt, st := t.st } ∧ SameBytes s t

/-- R184, R185: the skips on a key; the key number is the low nibble of `V[X]` (D14), the sum is not wrapped
(D5), no other state changes (D33). -/
def Obligations.SkipOnKey : Prop :=
  RowMeans 0xF0FF 0xE09E (fun op => .skp (fieldX op)) ∧
  RowMeans 0xF0FF 0xE0A1 (fun op => .sknp (fieldX op)) ∧
  ∀ x s,
    exec (.skp x) s = .next { s with
      pc := if s.port.env.keys.getLsbD ((s.reg x).toNat % 16) = true then s.pc + 2 else s.pc } ∧
    exec (.sknp x) s = .next { s with
      pc := if s.port.env.keys.getLsbD ((s.reg x).toNat % 16) = true then s.pc else s.pc + 2 }

/-- R186: FX0A stores the answered key, or sets PC back to the fetch address (not PC - 2: D6). `insn_addr`
is the wire held in the port (log 7); that a step sets it to PC is `StepRunsDecodedInstruction`. -/
def Obligations.KeyWaitStoresOrRetries : Prop :=
  RowMeans 0xF0FF 0xF00A (fun op => .ldVxK (fieldX op)) ∧
  ∀ x s, ∃ t, exec (.ldVxK x) s = .next t ∧
    (∀ k, s.port.env.poll = some k →
      (t.reg x).toNat = k.val ∧ (∀ r, t.reg r = if r = x then t.reg x else s.reg r) ∧ OnlyRegs s t) ∧
    (s.port.env.poll = none → t.pc = s.port.insnAddr ∧ OnlyPc s t)

/-- R187: CXKK writes the AND of the step's random byte and KK to `V[X]`, whatever that byte is, and nothing
else (D33). The byte is a free input (D26; log 1). -/
def Obligations.RandomAndMask : Prop :=
  RowMeans 0xF000 0xC000 (fun op => .rnd (fieldX op) (fieldKK op)) ∧
  ∀ x kk s, ∃ t, exec (.rnd x kk) s = .next t ∧
    (∀ r, t.reg r = if r = x then s.port.env.rnd &&& kk else s.reg r) ∧ OnlyRegs s t

/-! ### The step (spec/40_engine_step.md) -/

/-- R81, R84: where the word at PC decodes to `i`, a step is `exec i` on the state with PC advanced. Around
it the model adds the ticks and the input record of the stimulus (log 1, log 2), the two wires (log 7), the
report `Ok` (log 6) and the end of the load window (log 8). -/
def Obligations.StepRunsDecodedInstruction : Prop :=
  ∀ s i, s.halt = false → s.pc.toNat < 4095 → decodeOp (wordAt s) = .ok i →
    step s = exec i { s with
      pc := advanced s.pc
      dt := BitVec.ofNat 8 (s.dt.toNat - s.stimulus.ticks)
      st := BitVec.ofNat 8 (s.st.toNat - s.stimulus.ticks)
      port := {
        pending := s.port.pending.tail
        draws := s.port.draws + 1
        env := s.stimulus.env
        insnAddr := s.pc
        op := wordAt s
        report := .ok
        loadOpen := false } }

/-- R88: a word on no row advances PC and changes nothing else; the step reports `Invalid(insn_addr, op)`,
which the model holds in the port (log 6). -/
def Obligations.InvalidWordOnlyAdvances : Prop :=
  ∀ e s, s.halt = false → s.pc.toNat < 4095 → (∀ r ∈ opcodeRows, wordAt s &&& r.mask ≠ r.pattern) →
    ∃ t, stepEvent e s = .next t ∧ t = { s with pc := advanced s.pc, port := t.port } ∧
      t.port.report = .invalid s.pc (wordAt s) ∧ SameBytes s t

/-- R42: a fetch assembles the word big-endian: `op[15:8] = MEM[PC]`, `op[7:0] = MEM[PC + 1]`. -/
def Obligations.FetchIsBigEndian : Prop :=
  ∀ s : State, s.pc.toNat < 4095 → ∃ op, s.fetch = .ok op ∧
    op.extractLsb' 8 8 = s.mem.byte s.pc.toNat ∧ op.extractLsb' 0 8 = s.mem.byte (s.pc.toNat + 1)

/-- R83, R205: a fetch at 4095 or above raises AddressOutOfRange; PC is not advanced and nothing but the
latch changes (D5, D20, D21); the report is held in the port (log 6). -/
def Obligations.FetchFaultKeepsPc : Prop :=
  ∀ e s, s.halt = false → 4095 ≤ s.pc.toNat →
    ∃ t, stepEvent e s = .next t ∧ t = { s with halt := true, fault := 4, port := t.port } ∧
      t.port.report = .fatal 4 (.fetch s.pc) ∧ SameBytes s t

/-- R208: while HALT is 1 a step changes no state and reports the latched code, load_program is refused with
it, and ticks still act (D20, D24). The report is held in the port (log 6). -/
def Obligations.HaltedMachineStaysFrozen : Prop :=
  ∀ e bytes s, s.halt = true →
    (∃ t, stepEvent e s = .next t ∧ t = { s with port := t.port } ∧
      t.port.report = .fatal s.fault .latched) ∧
    (∃ t, loadProgram bytes s = .next t ∧ t = { s with port := t.port } ∧
      t.port.report = .fatal s.fault .latched) ∧
    (∃ t, Event.deliver .tick s = .next t ∧ t.halt = true ∧ t.fault = s.fault ∧
      t.dt.toNat = s.dt.toNat - 1 ∧ t.st.toNat = s.st.toNat - 1)

/-! ### The call stack (spec/10_state.md) -/

namespace Sys2Proof.Claims

/-- Push a list of addresses, the first one first. -/
def pushAll : List Word → State → Except Fault State
  | [], s => .ok s
  | a :: as, s =>
    match s.push a with
    | .ok t => pushAll as t
    | .error f => .error f

/-- Pop a number of addresses, in the order they come. -/
def popAll : Nat → State → Except Fault (List Word × State)
  | 0, s => .ok ([], s)
  | n + 1, s =>
    match s.pop with
    | .error f => .error f
    | .ok (a, t) =>
      match popAll n t with
      | .error f => .error f
      | .ok (as, u) => .ok (a :: as, u)

end Sys2Proof.Claims

/-- R18: Pop faults on the empty stack and otherwise returns `STACK[SP - 1]`, leaving the array as it was; the
stack is last-in first-out: from the empty stack any 16 pushes succeed, the 17th fails, 16 pops return the
addresses in reverse order, and the 17th pop fails. -/
def Obligations.CallStackIsLastInFirstOut : Prop :=
  (∀ s : State, s.sp.val = 0 → s.pop = .error .stackUnderflow) ∧
  (∀ (s : State) (k : Fin 16), s.sp.val = k.val + 1 → ∃ t, s.pop = .ok (s.stack[k.val], t) ∧
    t.sp.val = k.val ∧ t = { s with sp := t.sp }) ∧
  (∀ (s : State) (as : List Word), s.sp.val = 0 → as.length = 16 →
    ∃ t u, pushAll as s = .ok t ∧ t.sp.val = 16 ∧ (∀ a, t.push a = .error .stackOverflow) ∧
      popAll 16 t = .ok (as.reverse, u) ∧ u.sp.val = 0 ∧ u.pop = .error .stackUnderflow)

/-! ### Reset and program load (spec/70_reset_and_hazards.md) -/

/-- R26, R230: the reset state for every FONT (D28), and the reset event of a machine, which keeps its FONT
and what the surroundings will do (log 13). STACK, HALT and FAULT are D3 and D20; the port's reset values
are the model's (log 1, 6, 7, 8). -/
def Obligations.ResetState : Prop :=
  ∀ font : Font, let s := State.powerOn font
    (∀ r, s.reg r = 0) ∧ s.i = 0 ∧ s.pc = 0x0200 ∧ s.sp.val = 0 ∧
    (∀ k : Fin 16, s.stack[k.val] = 0) ∧ s.dt = 0 ∧ s.st = 0 ∧
    (∀ r : Fin 32, s.disp[r.val] = 0) ∧ s.halt = false ∧ s.fault = 0 ∧
    (∀ k : Fin 80, s.mem.byte k.val = font[k.val]) ∧ (∀ a, 80 ≤ a → s.mem.byte a = 0) ∧
    ∀ u : State, u.mem.font = font → ∃ t, Event.deliver .reset u = .next t ∧ t = { s with port := t.port }

/-- R232, R233: load_program stands the image at 0x200 and changes no other byte; more than 3584 bytes raise
ProgramTooLarge with nothing written (D23); the model refuses it after the first step or load (D23, log 8).
The result is held in the port (log 6). -/
def Obligations.LoadProgramStandsImage : Prop :=
  ∀ (bytes : List Byte) (s : State), s.mem.wf = true → s.halt = false →
    (s.port.loadOpen = true ∧ bytes.length ≤ 3584 → ∃ t, loadProgram bytes s = .next t ∧
      (∀ k, k < bytes.length → t.mem.byte (0x200 + k) = bytes.getD k 0) ∧
      (∀ a, a < 0x200 ∨ 0x200 + bytes.length ≤ a → t.mem.byte a = s.mem.byte a) ∧
      t = { s with mem := t.mem, port := t.port } ∧ t.port.report = .ok ∧ t.port.loadOpen = false) ∧
    (s.port.loadOpen = true ∧ 3584 < bytes.length → ∃ t, loadProgram bytes s = .next t ∧
      t = { s with halt := true, fault := 5, port := t.port } ∧ SameBytes s t ∧
      t.port.report = .fatal 5 (.load bytes.length)) ∧
    (s.port.loadOpen = false → loadProgram bytes s = .refused .loadAfterStart)

/-! ### Encoding (spec/30_encoding.md) -/

/-- R70: decoding the encoding of any instruction, with every operand at every value, gives it back, as a
word and as bytes in memory order. -/
def Obligations.DecodeOfEncodeIsIdentity : Prop :=
  ∀ i : Instr, decodeOp (encode i) = .ok i ∧ ∀ rest, decode (encodeBytes i ++ rest) = .ok (i, rest)

/-- R70, R67: encoding a decoded word gives the word back with its ignored bits zero (D7, D8), so a word in
canonical spelling comes back unchanged. -/
def Obligations.EncodeOfDecodeClearsIgnoredBits : Prop :=
  ∀ (op : Word) (i : Instr), decodeOp op = .ok i →
    encode i = op &&& ~~~ ignoredBits op ∧ (canonicalWord op = true → encode i = op)

/-- R65: a word is the instruction of a row iff its masked bits are the row's pattern; the 34 rows are
disjoint; a word on no row is invalid. -/
def Obligations.DecoderIsOpcodeMap : Prop :=
  opcodeRows.length = 34 ∧
  (∀ (op : Word) (r q : OpRow), r ∈ opcodeRows → q ∈ opcodeRows →
    op &&& r.mask = r.pattern → op &&& q.mask = q.pattern → r = q) ∧
  ∀ op : Word,
    (∀ i, decodeOp op = .ok i → i.row ∈ opcodeRows ∧ op &&& i.row.mask = i.row.pattern) ∧
    (∀ r ∈ opcodeRows, op &&& r.mask = r.pattern → ∃ i, decodeOp op = .ok i ∧ i.row = r) ∧
    ((∀ r ∈ opcodeRows, op &&& r.mask ≠ r.pattern) → decodeOp op = .error (.invalidInstruction op))

/-- R66: the invalid words, family by family (the spec derives the list from the opcode map). -/
def Obligations.InvalidWordsByFamily : Prop :=
  ∀ op : Word, decodeOp op = .error (.invalidInstruction op) ↔
    (op.extractLsb' 12 4 = 0x0 ∧ fieldKK op ∉ [0xE0, 0xEE]) ∨
    (op.extractLsb' 12 4 = 0x8 ∧ (fieldN op).val ∈ [8, 9, 10, 11, 12, 13, 15]) ∨
    (op.extractLsb' 12 4 = 0xE ∧ fieldKK op ∉ [0x9E, 0xA1]) ∨
    (op.extractLsb' 12 4 = 0xF ∧
      fieldKK op ∉ [0x07, 0x0A, 0x15, 0x18, 0x1E, 0x29, 0x33, 0x55, 0x65])

/-- R61, R62: words written out from the formats decode to what they stand for; two of them carry ignored
bits that are not zero (D7, D8). -/
def Obligations.SampleWordsDecode : Prop :=
  decodeOp 0x07EE = .ok .ret ∧ decodeOp 0x1ABC = .ok (.jp 0xABC) ∧
  decodeOp 0x912F = .ok (.sneVxVy 1 2) ∧ decodeOp 0x8F14 = .ok (.addVxVy 15 1) ∧
  decodeOp 0xA202 = .ok (.ldINnn 0x202) ∧ decodeOp 0xD345 = .ok (.drw 3 4 5) ∧
  decodeOp 0xE59E = .ok (.skp 5) ∧ decodeOp 0xF265 = .ok (.ldVxMi 2)

/-! ### The whole machine -/

/-- R26: the reset state meets the invariant, for every FONT (D28). -/
def Obligations.ResetMeetsInvariant : Prop := ∀ font : Font, Safety.Inv (State.powerOn font)

/-- The invariant `Safety.Inv` is kept by every step: canonical memory (log 4), a consistent latch (R23),
PC at most 0x10FE (R16), return addresses at most 0x0FFF (R100). -/
def Obligations.StepKeepsInvariant : Prop :=
  ∀ s t, Safety.Inv s → step s = .next t → Safety.Inv t

/-- The invariant is kept by every event of R240: reset, load_program, step, tick, snapshot. -/
def Obligations.EventsKeepInvariant : Prop :=
  ∀ (e : Event) (s t : State), Safety.Inv s → e.deliver s = .next t → Safety.Inv t

/-- Every instruction, and every step, from every state, answers a next state: faults are taken (R207, log
5) and nothing is refused. -/
def Obligations.NothingStopsTheMachine : Prop :=
  (∀ i s, ∃ t, exec i s = .next t) ∧ ∀ s, ∃ t, step s = .next t

namespace Sys2Proof.Claims

/-- The instructions that write VF as a flag (R13). -/
def writesFlag : Instr → Bool
  | .addVxVy _ _ | .sub _ _ | .shr _ _ | .subn _ _ | .shl _ _ | .drw _ _ _ => true
  | _ => false

/-- The registers an instruction may write as a destination (R86): `V[X]`, and `V[0..X]` for FX65. -/
def mayWriteReg (i : Instr) (r : RegNo) : Bool :=
  match i with
  | .ldVxKk x _ | .addVxKk x _ | .ldVxVy x _ | .orVxVy x _ | .andVxVy x _ | .xorVxVy x _
  | .addVxVy x _ | .sub x _ | .shr x _ | .subn x _ | .shl x _ | .rnd x _ | .ldVxDt x | .ldVxK x => r == x
  | .ldVxMi x => decide (r.val ≤ x.val)
  | _ => false

/-- The instructions that write I (R86). -/
def writesI : Instr → Bool
  | .ldINnn _ | .addIVx _ | .ldFVx _ => true
  | _ => false

/-- The instructions that write the call stack (R19). -/
def writesStack : Instr → Bool
  | .call _ | .ret => true
  | _ => false

/-- The instructions that write PC beyond the advance (R16). -/
def writesPc : Instr → Bool
  | .jp _ | .call _ | .ret | .jpV0 _ | .seVxKk _ _ | .sneVxKk _ _ | .seVxVy _ _ | .sneVxVy _ _
  | .skp _ | .sknp _ | .ldVxK _ => true
  | _ => false

/-- The instructions that write the display (R167). -/
def writesDisplay : Instr → Bool
  | .cls | .drw _ _ _ => true
  | _ => false

/-- The instructions that write memory (R29, R47). -/
def writesMemory : Instr → Bool
  | .ldBVx _ | .ldMiVx _ => true
  | _ => false

/-- When an instruction raises a fatal fault, and its code (R201, R210). -/
def raises (i : Instr) (s : State) : Option (BitVec 3) :=
  match i with
  | .call _ => if s.sp.val = 16 then some 2 else none
  | .ret => if s.sp.val = 0 then some 3 else none
  | .drw _ _ n => if 1 ≤ n.val ∧ 4096 ≤ s.i.toNat + n.val - 1 then some 4 else none
  | .ldBVx _ => if 4096 ≤ s.i.toNat + 2 then some 4 else none
  | .ldMiVx x => if 4096 ≤ s.i.toNat + x.val then some 4 else none
  | .ldVxMi x => if 4096 ≤ s.i.toNat + x.val then some 4 else none
  | _ => none

/-- Apply a function to the next state of an outcome. -/
def mapNext (f : State → State) : Host.Outcome State Fault Refusal → Host.Outcome State Fault Refusal
  | .next t => .next (f t)
  | .fault r => .fault r
  | .refused r => .refused r

/-- Replace the input record of the step in progress. -/
def withEnv (e : Env) (s : State) : State := { s with port := { s.port with env := e } }

end Sys2Proof.Claims

/-- R86, R13, R16, R19, R167: an instruction writes what its rule names and nothing else, component by
component, in every case (the closed-world reading is D33). -/
def Obligations.OnlyNamedWriters : Prop :=
  ∀ i s t, exec i s = .next t →
    (∀ r, t.reg r ≠ s.reg r → mayWriteReg i r = true ∨ (r = 15 ∧ writesFlag i = true)) ∧
    (t.i ≠ s.i → writesI i = true) ∧
    (t.pc ≠ s.pc → writesPc i = true) ∧
    (t.sp ≠ s.sp ∨ t.stack ≠ s.stack → writesStack i = true) ∧
    (t.dt ≠ s.dt → ∃ x, i = .ldDtVx x) ∧
    (t.st ≠ s.st → ∃ x, i = .ldStVx x) ∧
    (t.disp ≠ s.disp → writesDisplay i = true) ∧
    (t.mem ≠ s.mem → writesMemory i = true) ∧ t.mem.font = s.mem.font

/-- R201, R210: an instruction raises its one fault exactly under its condition, with its code, and then
leaves everything but the latch as it was (R147, R207; D18, D20, D21); otherwise the latch is untouched. -/
def Obligations.FaultConditionsAndCodes : Prop :=
  ∀ i s, ∃ t, exec i s = .next t ∧
    (∀ code, raises i s = some code → t = Faulted s code) ∧
    (raises i s = none → t.halt = s.halt ∧ t.fault = s.fault ∧ t.port = s.port)

/-- R207: a step that halts a running machine leaves all state but PC and the latch as it was (D18, D20, D21):
PC is either unchanged, at a fetch fault, or the advanced one. -/
def Obligations.FatalFaultsArePrecise : Prop :=
  ∀ e s t, s.halt = false → stepEvent e s = .next t → t.halt = true →
    t = { s with pc := t.pc, halt := true, fault := t.fault, port := t.port } ∧
    ((4095 ≤ s.pc.toNat ∧ t.pc = s.pc ∧ t.fault = 4) ∨
      (s.pc.toNat < 4095 ∧ t.pc = advanced s.pc ∧ 2 ≤ t.fault.toNat ∧ t.fault.toNat ≤ 4))

/-- R89: only EX9E and EXA1 depend on the key states, only FX0A on the poll answer, only CXKK on the random
byte; every other instruction is a function of the state alone (one record per step is D35, log 1). -/
def Obligations.InputsReachOnlyTheirInstructions : Prop :=
  ∀ i s (e : Env),
    ((∀ x, i ≠ .skp x) → (∀ x, i ≠ .sknp x) →
      exec i (withEnv { s.port.env with keys := e.keys } s) =
        mapNext (withEnv { s.port.env with keys := e.keys }) (exec i s)) ∧
    ((∀ x, i ≠ .ldVxK x) →
      exec i (withEnv { s.port.env with poll := e.poll } s) =
        mapNext (withEnv { s.port.env with poll := e.poll }) (exec i s)) ∧
    ((∀ x kk, i ≠ .rnd x kk) →
      exec i (withEnv { s.port.env with rnd := e.rnd } s) =
        mapNext (withEnv { s.port.env with rnd := e.rnd }) (exec i s))

/-- R53, R43: bytes stored by FX55 are what the next fetch there reads, the byte at the lower address being
the high byte (D31). -/
def Obligations.StoresAreSeenByFetch : Prop :=
  ∀ (x k : RegNo) (s : State), s.mem.wf = true → s.base + x.val < 4096 → (hk : k.val < x.val) →
    ∃ t, exec (.ldMiVx x) s = .next t ∧
      State.fetch { t with pc := BitVec.ofNat 16 (s.base + k.val) } =
        .ok (s.reg k ++ s.reg ⟨k.val + 1, by omega⟩)

/-- R45, R46, R49: a checked write below 4096 changes that byte alone and keeps the canonical form, and a
read gives the last byte written; at 4096 and above both raise AddressOutOfRange (the write check is D17). -/
def Obligations.MemoryReadAfterWrite : Prop :=
  ∀ (m : Memory) (a : Nat) (b : Byte), m.wf = true →
    (a < 4096 → ∃ m', m.write a b = .ok m' ∧ m'.wf = true ∧ m'.read a = .ok b ∧
      ∀ k, k ≠ a → m'.read k = m.read k) ∧
    (4096 ≤ a → m.write a b = .error .addressOutOfRange ∧ m.read a = .error .addressOutOfRange)

/-- R239, R241: a step of the model is a schedule of events: the ticks of the stimulus one by one, then a
step event with its input record (log 1, log 2). -/
def Obligations.StepIsTicksThenStepEvent : Prop :=
  ∀ s, step s = deliverAll
    (List.replicate s.stimulus.ticks .tick ++ [.step s.stimulus.env]) s.consume

/-- R101, R183: a jump to itself parks the machine: every later step leaves all of the spec's state but the
timers as it is. -/
def Obligations.JumpToSelfParks : Prop :=
  ∀ (k : Nat) (s : State), s.halt = false → s.pc.toNat < 4095 →
    wordAt s = 0x1000 ||| (s.pc &&& 0x0FFF) →
    ∃ t, Host.Core.run Sys2Proof.core k s = .next t ∧
      t = { s with dt := t.dt, st := t.st, port := t.port } ∧
      t.dt.toNat ≤ s.dt.toNat ∧ t.st.toNat ≤ s.st.toNat
end

