-- ==== Sys2Proof/Laws/Decode.lean ====
section
/-! SUPPORT. The bits of an encoded word, and that its fields are the fields it was built from, format by
format (R61, R62). -/

namespace Sys2Proof

/-! ### Bits -/

theorem formatA_bit (f : BitVec 4) (nnn : Addr) (k : Nat) :
    (formatA f nnn).getLsbD k = if k < 12 then nnn.getLsbD k else f.getLsbD (k - 12) :=
  BitVec.getLsbD_append

theorem formatXK_bit (f : BitVec 4) (x : RegNo) (kk : Byte) (k : Nat) :
    (formatXK f x kk).getLsbD k =
      if k < 8 then kk.getLsbD k
      else if k - 8 < 4 then (BitVec.ofFin x : BitVec 4).getLsbD (k - 8) else f.getLsbD (k - 8 - 4) :=
  (BitVec.getLsbD_append (x := f ++ (BitVec.ofFin x : BitVec 4)) (y := kk)).trans
    (by rw [BitVec.getLsbD_append])

theorem formatXYN_bit (f : BitVec 4) (x y : RegNo) (n : Fin 16) (k : Nat) :
    (formatXYN f x y n).getLsbD k =
      if k < 4 then (BitVec.ofFin n : BitVec 4).getLsbD k
      else if k - 4 < 4 then (BitVec.ofFin y : BitVec 4).getLsbD (k - 4)
      else if k - 4 - 4 < 4 then (BitVec.ofFin x : BitVec 4).getLsbD (k - 4 - 4)
      else f.getLsbD (k - 4 - 4 - 4) :=
  (BitVec.getLsbD_append (x := f ++ (BitVec.ofFin x : BitVec 4) ++ (BitVec.ofFin y : BitVec 4))
    (y := (BitVec.ofFin n : BitVec 4))).trans
    (by rw [BitVec.getLsbD_append, BitVec.getLsbD_append])

/-! ### Fields of formats A, XK and XYN -/

@[simp] theorem opFamily_formatA (f : BitVec 4) (nnn : Addr) : opFamily (formatA f nnn) = f := by
  unfold opFamily
  ext k hk
  simp [formatA_bit, BitVec.getLsbD_eq_getElem hk]

@[simp] theorem opNNN_formatA (f : BitVec 4) (nnn : Addr) : opNNN (formatA f nnn) = nnn := by
  unfold opNNN
  ext k hk
  simp [formatA_bit, hk]

@[simp] theorem opFamily_formatXK (f : BitVec 4) (x : RegNo) (kk : Byte) : opFamily (formatXK f x kk) = f := by
  unfold opFamily
  ext k hk
  have h1 : ¬ 12 + k < 8 := by omega
  have h2 : ¬ 12 + k - 8 < 4 := by omega
  have h3 : 12 + k - 8 - 4 = k := by omega
  simp [formatXK_bit, h1, h2, h3, BitVec.getLsbD_eq_getElem hk]

@[simp] theorem opX_formatXK (f : BitVec 4) (x : RegNo) (kk : Byte) : opX (formatXK f x kk) = x := by
  have h : (formatXK f x kk).extractLsb' 8 4 = BitVec.ofFin x := by
    ext k hk
    simp [formatXK_bit, hk]
  rw [opX, h]

@[simp] theorem opKK_formatXK (f : BitVec 4) (x : RegNo) (kk : Byte) : opKK (formatXK f x kk) = kk := by
  unfold opKK
  ext k hk
  simp [formatXK_bit, hk]

@[simp] theorem opFamily_formatXYN (f : BitVec 4) (x y : RegNo) (n : Fin 16) :
    opFamily (formatXYN f x y n) = f := by
  unfold opFamily
  ext k hk
  have h1 : ¬ 12 + k < 4 := by omega
  have h2 : ¬ 12 + k - 4 < 4 := by omega
  have h3 : ¬ 12 + k - 4 - 4 < 4 := by omega
  have h4 : 12 + k - 4 - 4 - 4 = k := by omega
  simp [formatXYN_bit, h1, h2, h3, h4, BitVec.getLsbD_eq_getElem hk]

@[simp] theorem opX_formatXYN (f : BitVec 4) (x y : RegNo) (n : Fin 16) : opX (formatXYN f x y n) = x := by
  have h : (formatXYN f x y n).extractLsb' 8 4 = BitVec.ofFin x := by
    ext k hk
    have h1 : ¬ 8 + k < 4 := by omega
    have h2 : ¬ 8 + k - 4 < 4 := by omega
    have h3 : 8 + k - 4 - 4 = k := by omega
    simp [formatXYN_bit, h1, h2, h3, hk]
  rw [opX, h]

@[simp] theorem opY_formatXYN (f : BitVec 4) (x y : RegNo) (n : Fin 16) : opY (formatXYN f x y n) = y := by
  have h : (formatXYN f x y n).extractLsb' 4 4 = BitVec.ofFin y := by
    ext k hk
    simp [formatXYN_bit, hk]
  rw [opY, h]

@[simp] theorem opNibble_formatXYN (f : BitVec 4) (x y : RegNo) (n : Fin 16) :
    opNibble (formatXYN f x y n) = BitVec.ofFin n := by
  unfold opNibble
  ext k hk
  simp [formatXYN_bit, hk]

@[simp] theorem opN_formatXYN (f : BitVec 4) (x y : RegNo) (n : Fin 16) : opN (formatXYN f x y n) = n := by
  have h : (formatXYN f x y n).extractLsb' 0 4 = BitVec.ofFin n := opNibble_formatXYN f x y n
  rw [opN, h]

/-! ### Bytes -/

@[simp] theorem joinBytes_hi_lo (op : Word) : joinBytes (hiByte op) (loByte op) = op := by
  have hbit : ∀ k, (joinBytes (hiByte op) (loByte op)).getLsbD k =
      if k < 8 then (loByte op).getLsbD k else (hiByte op).getLsbD (k - 8) :=
    fun k => BitVec.getLsbD_append
  apply BitVec.eq_of_getLsbD_eq
  intro k hk
  rw [hbit]
  by_cases h : k < 8
  · simp [h, loByte]
  · have h1 : k - 8 < 8 := by omega
    have h2 : 8 + (k - 8) = k := by omega
    simp [h, hiByte, h1, h2]

/-- A word is decoded from its two bytes in memory order (R42). -/
theorem decode_bytes (op : Word) (rest : List Byte) {i : Instr} (h : decodeOp op = .ok i) :
    decode (hiByte op :: loByte op :: rest) = .ok (i, rest) := by
  simp [decode, h]

/-! ### Fields of a word from its masked bits (R65) -/

theorem opFamily_of_mask {op p : Word} (h : op &&& 0xF000 = p) : opFamily op = p.extractLsb' 12 4 := by
  subst h
  unfold opFamily
  ext k hk
  rcases (by omega : k = 0 ∨ k = 1 ∨ k = 2 ∨ k = 3) with rfl | rfl | rfl | rfl <;> simp

theorem opFamily_of_mask8 {op p : Word} (h : op &&& 0xF00F = p) : opFamily op = p.extractLsb' 12 4 := by
  subst h
  unfold opFamily
  ext k hk
  rcases (by omega : k = 0 ∨ k = 1 ∨ k = 2 ∨ k = 3) with rfl | rfl | rfl | rfl <;> simp

theorem opNibble_of_mask8 {op p : Word} (h : op &&& 0xF00F = p) : opNibble op = p.extractLsb' 0 4 := by
  subst h
  unfold opNibble
  ext k hk
  rcases (by omega : k = 0 ∨ k = 1 ∨ k = 2 ∨ k = 3) with rfl | rfl | rfl | rfl <;> simp

theorem opFamily_of_maskSub {op p : Word} (h : op &&& 0xF0FF = p) : opFamily op = p.extractLsb' 12 4 := by
  subst h
  unfold opFamily
  ext k hk
  rcases (by omega : k = 0 ∨ k = 1 ∨ k = 2 ∨ k = 3) with rfl | rfl | rfl | rfl <;> simp

theorem opKK_of_maskSub {op p : Word} (h : op &&& 0xF0FF = p) : opKK op = p.extractLsb' 0 8 := by
  subst h
  unfold opKK
  ext k hk
  rcases (by omega : k = 0 ∨ k = 1 ∨ k = 2 ∨ k = 3 ∨ k = 4 ∨ k = 5 ∨ k = 6 ∨ k = 7) with
    rfl | rfl | rfl | rfl | rfl | rfl | rfl | rfl <;> simp

end Sys2Proof
end

