-- ==== Sys2Proof/Laws/State.lean ====
section
/-! SUPPORT. What each update does to each field of State, and to a register's value, one lemma per field,
so that no proof unfolds a record update. -/

namespace Sys2Proof.Machine.State

variable (s : State)

/-! ### `setReg` -/

@[simp] theorem setReg_v (x : RegNo) (b : Byte) : (s.setReg x b).v = s.v.set x.val b x.isLt := rfl
@[simp] theorem setReg_i (x : RegNo) (b : Byte) : (s.setReg x b).i = s.i := rfl
@[simp] theorem setReg_pc (x : RegNo) (b : Byte) : (s.setReg x b).pc = s.pc := rfl
@[simp] theorem setReg_stack (x : RegNo) (b : Byte) : (s.setReg x b).stack = s.stack := rfl
@[simp] theorem setReg_sp (x : RegNo) (b : Byte) : (s.setReg x b).sp = s.sp := rfl
@[simp] theorem setReg_dt (x : RegNo) (b : Byte) : (s.setReg x b).dt = s.dt := rfl
@[simp] theorem setReg_st (x : RegNo) (b : Byte) : (s.setReg x b).st = s.st := rfl
@[simp] theorem setReg_disp (x : RegNo) (b : Byte) : (s.setReg x b).disp = s.disp := rfl
@[simp] theorem setReg_mem (x : RegNo) (b : Byte) : (s.setReg x b).mem = s.mem := rfl
@[simp] theorem setReg_halt (x : RegNo) (b : Byte) : (s.setReg x b).halt = s.halt := rfl
@[simp] theorem setReg_fault (x : RegNo) (b : Byte) : (s.setReg x b).fault = s.fault := rfl
@[simp] theorem setReg_port (x : RegNo) (b : Byte) : (s.setReg x b).port = s.port := rfl

/-! ### `setFlagAndReg` -/

@[simp] theorem setFlagAndReg_v (g : Byte) (x : RegNo) (b : Byte) : (s.setFlagAndReg g x b).v = (s.v.set vf.val g vf.isLt).set x.val b x.isLt := by simp only [setFlagAndReg, setReg_v]
@[simp] theorem setFlagAndReg_i (g : Byte) (x : RegNo) (b : Byte) : (s.setFlagAndReg g x b).i = s.i := by simp only [setFlagAndReg, setReg_i]
@[simp] theorem setFlagAndReg_pc (g : Byte) (x : RegNo) (b : Byte) : (s.setFlagAndReg g x b).pc = s.pc := by simp only [setFlagAndReg, setReg_pc]
@[simp] theorem setFlagAndReg_stack (g : Byte) (x : RegNo) (b : Byte) : (s.setFlagAndReg g x b).stack = s.stack := by simp only [setFlagAndReg, setReg_stack]
@[simp] theorem setFlagAndReg_sp (g : Byte) (x : RegNo) (b : Byte) : (s.setFlagAndReg g x b).sp = s.sp := by simp only [setFlagAndReg, setReg_sp]
@[simp] theorem setFlagAndReg_dt (g : Byte) (x : RegNo) (b : Byte) : (s.setFlagAndReg g x b).dt = s.dt := by simp only [setFlagAndReg, setReg_dt]
@[simp] theorem setFlagAndReg_st (g : Byte) (x : RegNo) (b : Byte) : (s.setFlagAndReg g x b).st = s.st := by simp only [setFlagAndReg, setReg_st]
@[simp] theorem setFlagAndReg_disp (g : Byte) (x : RegNo) (b : Byte) : (s.setFlagAndReg g x b).disp = s.disp := by simp only [setFlagAndReg, setReg_disp]
@[simp] theorem setFlagAndReg_mem (g : Byte) (x : RegNo) (b : Byte) : (s.setFlagAndReg g x b).mem = s.mem := by simp only [setFlagAndReg, setReg_mem]
@[simp] theorem setFlagAndReg_halt (g : Byte) (x : RegNo) (b : Byte) : (s.setFlagAndReg g x b).halt = s.halt := by simp only [setFlagAndReg, setReg_halt]
@[simp] theorem setFlagAndReg_fault (g : Byte) (x : RegNo) (b : Byte) : (s.setFlagAndReg g x b).fault = s.fault := by simp only [setFlagAndReg, setReg_fault]
@[simp] theorem setFlagAndReg_port (g : Byte) (x : RegNo) (b : Byte) : (s.setFlagAndReg g x b).port = s.port := by simp only [setFlagAndReg, setReg_port]

/-! ### `loadRegsUpTo` -/

@[simp] theorem loadRegsUpTo_v (x : RegNo) (bs : List Byte) : (s.loadRegsUpTo x bs).v = Vector.ofFn fun r : RegNo => if r.val ≤ x.val then bs.getD r.val 0 else s.v[r.val] := rfl
@[simp] theorem loadRegsUpTo_i (x : RegNo) (bs : List Byte) : (s.loadRegsUpTo x bs).i = s.i := by simp only [loadRegsUpTo]
@[simp] theorem loadRegsUpTo_pc (x : RegNo) (bs : List Byte) : (s.loadRegsUpTo x bs).pc = s.pc := by simp only [loadRegsUpTo]
@[simp] theorem loadRegsUpTo_stack (x : RegNo) (bs : List Byte) : (s.loadRegsUpTo x bs).stack = s.stack := by simp only [loadRegsUpTo]
@[simp] theorem loadRegsUpTo_sp (x : RegNo) (bs : List Byte) : (s.loadRegsUpTo x bs).sp = s.sp := by simp only [loadRegsUpTo]
@[simp] theorem loadRegsUpTo_dt (x : RegNo) (bs : List Byte) : (s.loadRegsUpTo x bs).dt = s.dt := by simp only [loadRegsUpTo]
@[simp] theorem loadRegsUpTo_st (x : RegNo) (bs : List Byte) : (s.loadRegsUpTo x bs).st = s.st := by simp only [loadRegsUpTo]
@[simp] theorem loadRegsUpTo_disp (x : RegNo) (bs : List Byte) : (s.loadRegsUpTo x bs).disp = s.disp := by simp only [loadRegsUpTo]
@[simp] theorem loadRegsUpTo_mem (x : RegNo) (bs : List Byte) : (s.loadRegsUpTo x bs).mem = s.mem := by simp only [loadRegsUpTo]
@[simp] theorem loadRegsUpTo_halt (x : RegNo) (bs : List Byte) : (s.loadRegsUpTo x bs).halt = s.halt := by simp only [loadRegsUpTo]
@[simp] theorem loadRegsUpTo_fault (x : RegNo) (bs : List Byte) : (s.loadRegsUpTo x bs).fault = s.fault := by simp only [loadRegsUpTo]
@[simp] theorem loadRegsUpTo_port (x : RegNo) (bs : List Byte) : (s.loadRegsUpTo x bs).port = s.port := by simp only [loadRegsUpTo]

/-! ### `setI` -/

@[simp] theorem setI_v (a : Addr) : (s.setI a).v = s.v := rfl
@[simp] theorem setI_i (a : Addr) : (s.setI a).i = a := rfl
@[simp] theorem setI_pc (a : Addr) : (s.setI a).pc = s.pc := rfl
@[simp] theorem setI_stack (a : Addr) : (s.setI a).stack = s.stack := rfl
@[simp] theorem setI_sp (a : Addr) : (s.setI a).sp = s.sp := rfl
@[simp] theorem setI_dt (a : Addr) : (s.setI a).dt = s.dt := rfl
@[simp] theorem setI_st (a : Addr) : (s.setI a).st = s.st := rfl
@[simp] theorem setI_disp (a : Addr) : (s.setI a).disp = s.disp := rfl
@[simp] theorem setI_mem (a : Addr) : (s.setI a).mem = s.mem := rfl
@[simp] theorem setI_halt (a : Addr) : (s.setI a).halt = s.halt := rfl
@[simp] theorem setI_fault (a : Addr) : (s.setI a).fault = s.fault := rfl
@[simp] theorem setI_port (a : Addr) : (s.setI a).port = s.port := rfl
@[simp] theorem setI_reg (a : Addr) (r : RegNo) : (s.setI a).reg r = s.reg r := rfl

/-! ### `setPc` -/

@[simp] theorem setPc_v (a : Word) : (s.setPc a).v = s.v := rfl
@[simp] theorem setPc_i (a : Word) : (s.setPc a).i = s.i := rfl
@[simp] theorem setPc_pc (a : Word) : (s.setPc a).pc = a := rfl
@[simp] theorem setPc_stack (a : Word) : (s.setPc a).stack = s.stack := rfl
@[simp] theorem setPc_sp (a : Word) : (s.setPc a).sp = s.sp := rfl
@[simp] theorem setPc_dt (a : Word) : (s.setPc a).dt = s.dt := rfl
@[simp] theorem setPc_st (a : Word) : (s.setPc a).st = s.st := rfl
@[simp] theorem setPc_disp (a : Word) : (s.setPc a).disp = s.disp := rfl
@[simp] theorem setPc_mem (a : Word) : (s.setPc a).mem = s.mem := rfl
@[simp] theorem setPc_halt (a : Word) : (s.setPc a).halt = s.halt := rfl
@[simp] theorem setPc_fault (a : Word) : (s.setPc a).fault = s.fault := rfl
@[simp] theorem setPc_port (a : Word) : (s.setPc a).port = s.port := rfl
@[simp] theorem setPc_reg (a : Word) (r : RegNo) : (s.setPc a).reg r = s.reg r := rfl

/-! ### `advance` -/

@[simp] theorem advance_v : (s.advance).v = s.v := rfl
@[simp] theorem advance_i : (s.advance).i = s.i := rfl
@[simp] theorem advance_pc : (s.advance).pc = advancePc s.pc := rfl
@[simp] theorem advance_stack : (s.advance).stack = s.stack := rfl
@[simp] theorem advance_sp : (s.advance).sp = s.sp := rfl
@[simp] theorem advance_dt : (s.advance).dt = s.dt := rfl
@[simp] theorem advance_st : (s.advance).st = s.st := rfl
@[simp] theorem advance_disp : (s.advance).disp = s.disp := rfl
@[simp] theorem advance_mem : (s.advance).mem = s.mem := rfl
@[simp] theorem advance_halt : (s.advance).halt = s.halt := rfl
@[simp] theorem advance_fault : (s.advance).fault = s.fault := rfl
@[simp] theorem advance_port : (s.advance).port = s.port := rfl
@[simp] theorem advance_reg (r : RegNo) : (s.advance).reg r = s.reg r := rfl

/-! ### `skip` -/

@[simp] theorem skip_v : (s.skip).v = s.v := rfl
@[simp] theorem skip_i : (s.skip).i = s.i := rfl
@[simp] theorem skip_pc : (s.skip).pc = s.pc + 2 := rfl
@[simp] theorem skip_stack : (s.skip).stack = s.stack := rfl
@[simp] theorem skip_sp : (s.skip).sp = s.sp := rfl
@[simp] theorem skip_dt : (s.skip).dt = s.dt := rfl
@[simp] theorem skip_st : (s.skip).st = s.st := rfl
@[simp] theorem skip_disp : (s.skip).disp = s.disp := rfl
@[simp] theorem skip_mem : (s.skip).mem = s.mem := rfl
@[simp] theorem skip_halt : (s.skip).halt = s.halt := rfl
@[simp] theorem skip_fault : (s.skip).fault = s.fault := rfl
@[simp] theorem skip_port : (s.skip).port = s.port := rfl
@[simp] theorem skip_reg (r : RegNo) : (s.skip).reg r = s.reg r := rfl

/-! ### `setDt` -/

@[simp] theorem setDt_v (b : Byte) : (s.setDt b).v = s.v := rfl
@[simp] theorem setDt_i (b : Byte) : (s.setDt b).i = s.i := rfl
@[simp] theorem setDt_pc (b : Byte) : (s.setDt b).pc = s.pc := rfl
@[simp] theorem setDt_stack (b : Byte) : (s.setDt b).stack = s.stack := rfl
@[simp] theorem setDt_sp (b : Byte) : (s.setDt b).sp = s.sp := rfl
@[simp] theorem setDt_dt (b : Byte) : (s.setDt b).dt = b := rfl
@[simp] theorem setDt_st (b : Byte) : (s.setDt b).st = s.st := rfl
@[simp] theorem setDt_disp (b : Byte) : (s.setDt b).disp = s.disp := rfl
@[simp] theorem setDt_mem (b : Byte) : (s.setDt b).mem = s.mem := rfl
@[simp] theorem setDt_halt (b : Byte) : (s.setDt b).halt = s.halt := rfl
@[simp] theorem setDt_fault (b : Byte) : (s.setDt b).fault = s.fault := rfl
@[simp] theorem setDt_port (b : Byte) : (s.setDt b).port = s.port := rfl
@[simp] theorem setDt_reg (b : Byte) (r : RegNo) : (s.setDt b).reg r = s.reg r := rfl

/-! ### `setSt` -/

@[simp] theorem setSt_v (b : Byte) : (s.setSt b).v = s.v := rfl
@[simp] theorem setSt_i (b : Byte) : (s.setSt b).i = s.i := rfl
@[simp] theorem setSt_pc (b : Byte) : (s.setSt b).pc = s.pc := rfl
@[simp] theorem setSt_stack (b : Byte) : (s.setSt b).stack = s.stack := rfl
@[simp] theorem setSt_sp (b : Byte) : (s.setSt b).sp = s.sp := rfl
@[simp] theorem setSt_dt (b : Byte) : (s.setSt b).dt = s.dt := rfl
@[simp] theorem setSt_st (b : Byte) : (s.setSt b).st = b := rfl
@[simp] theorem setSt_disp (b : Byte) : (s.setSt b).disp = s.disp := rfl
@[simp] theorem setSt_mem (b : Byte) : (s.setSt b).mem = s.mem := rfl
@[simp] theorem setSt_halt (b : Byte) : (s.setSt b).halt = s.halt := rfl
@[simp] theorem setSt_fault (b : Byte) : (s.setSt b).fault = s.fault := rfl
@[simp] theorem setSt_port (b : Byte) : (s.setSt b).port = s.port := rfl
@[simp] theorem setSt_reg (b : Byte) (r : RegNo) : (s.setSt b).reg r = s.reg r := rfl

/-! ### `setDisp` -/

@[simp] theorem setDisp_v (d : Vector PixelRow 32) : (s.setDisp d).v = s.v := rfl
@[simp] theorem setDisp_i (d : Vector PixelRow 32) : (s.setDisp d).i = s.i := rfl
@[simp] theorem setDisp_pc (d : Vector PixelRow 32) : (s.setDisp d).pc = s.pc := rfl
@[simp] theorem setDisp_stack (d : Vector PixelRow 32) : (s.setDisp d).stack = s.stack := rfl
@[simp] theorem setDisp_sp (d : Vector PixelRow 32) : (s.setDisp d).sp = s.sp := rfl
@[simp] theorem setDisp_dt (d : Vector PixelRow 32) : (s.setDisp d).dt = s.dt := rfl
@[simp] theorem setDisp_st (d : Vector PixelRow 32) : (s.setDisp d).st = s.st := rfl
@[simp] theorem setDisp_disp (d : Vector PixelRow 32) : (s.setDisp d).disp = d := rfl
@[simp] theorem setDisp_mem (d : Vector PixelRow 32) : (s.setDisp d).mem = s.mem := rfl
@[simp] theorem setDisp_halt (d : Vector PixelRow 32) : (s.setDisp d).halt = s.halt := rfl
@[simp] theorem setDisp_fault (d : Vector PixelRow 32) : (s.setDisp d).fault = s.fault := rfl
@[simp] theorem setDisp_port (d : Vector PixelRow 32) : (s.setDisp d).port = s.port := rfl
@[simp] theorem setDisp_reg (d : Vector PixelRow 32) (r : RegNo) : (s.setDisp d).reg r = s.reg r := rfl

/-! ### `setMem` -/

@[simp] theorem setMem_v (m : Memory) : (s.setMem m).v = s.v := rfl
@[simp] theorem setMem_i (m : Memory) : (s.setMem m).i = s.i := rfl
@[simp] theorem setMem_pc (m : Memory) : (s.setMem m).pc = s.pc := rfl
@[simp] theorem setMem_stack (m : Memory) : (s.setMem m).stack = s.stack := rfl
@[simp] theorem setMem_sp (m : Memory) : (s.setMem m).sp = s.sp := rfl
@[simp] theorem setMem_dt (m : Memory) : (s.setMem m).dt = s.dt := rfl
@[simp] theorem setMem_st (m : Memory) : (s.setMem m).st = s.st := rfl
@[simp] theorem setMem_disp (m : Memory) : (s.setMem m).disp = s.disp := rfl
@[simp] theorem setMem_mem (m : Memory) : (s.setMem m).mem = m := rfl
@[simp] theorem setMem_halt (m : Memory) : (s.setMem m).halt = s.halt := rfl
@[simp] theorem setMem_fault (m : Memory) : (s.setMem m).fault = s.fault := rfl
@[simp] theorem setMem_port (m : Memory) : (s.setMem m).port = s.port := rfl
@[simp] theorem setMem_reg (m : Memory) (r : RegNo) : (s.setMem m).reg r = s.reg r := rfl

/-! ### `setReport` -/

@[simp] theorem setReport_v (rp : Report) : (s.setReport rp).v = s.v := rfl
@[simp] theorem setReport_i (rp : Report) : (s.setReport rp).i = s.i := rfl
@[simp] theorem setReport_pc (rp : Report) : (s.setReport rp).pc = s.pc := rfl
@[simp] theorem setReport_stack (rp : Report) : (s.setReport rp).stack = s.stack := rfl
@[simp] theorem setReport_sp (rp : Report) : (s.setReport rp).sp = s.sp := rfl
@[simp] theorem setReport_dt (rp : Report) : (s.setReport rp).dt = s.dt := rfl
@[simp] theorem setReport_st (rp : Report) : (s.setReport rp).st = s.st := rfl
@[simp] theorem setReport_disp (rp : Report) : (s.setReport rp).disp = s.disp := rfl
@[simp] theorem setReport_mem (rp : Report) : (s.setReport rp).mem = s.mem := rfl
@[simp] theorem setReport_halt (rp : Report) : (s.setReport rp).halt = s.halt := rfl
@[simp] theorem setReport_fault (rp : Report) : (s.setReport rp).fault = s.fault := rfl
@[simp] theorem setReport_port (rp : Report) : (s.setReport rp).port = { s.port with report := rp } := rfl
@[simp] theorem setReport_reg (rp : Report) (r : RegNo) : (s.setReport rp).reg r = s.reg r := rfl

/-! ### `raise` -/

@[simp] theorem raise_v (f : Fault) (j : FaultInfo) : (s.raise f j).v = s.v := rfl
@[simp] theorem raise_i (f : Fault) (j : FaultInfo) : (s.raise f j).i = s.i := rfl
@[simp] theorem raise_pc (f : Fault) (j : FaultInfo) : (s.raise f j).pc = s.pc := rfl
@[simp] theorem raise_stack (f : Fault) (j : FaultInfo) : (s.raise f j).stack = s.stack := rfl
@[simp] theorem raise_sp (f : Fault) (j : FaultInfo) : (s.raise f j).sp = s.sp := rfl
@[simp] theorem raise_dt (f : Fault) (j : FaultInfo) : (s.raise f j).dt = s.dt := rfl
@[simp] theorem raise_st (f : Fault) (j : FaultInfo) : (s.raise f j).st = s.st := rfl
@[simp] theorem raise_disp (f : Fault) (j : FaultInfo) : (s.raise f j).disp = s.disp := rfl
@[simp] theorem raise_mem (f : Fault) (j : FaultInfo) : (s.raise f j).mem = s.mem := rfl
@[simp] theorem raise_halt (f : Fault) (j : FaultInfo) : (s.raise f j).halt = true := rfl
@[simp] theorem raise_fault (f : Fault) (j : FaultInfo) : (s.raise f j).fault = f.code := rfl
@[simp] theorem raise_port (f : Fault) (j : FaultInfo) : (s.raise f j).port = { s.port with report := .fatal f.code j } := rfl
@[simp] theorem raise_reg (f : Fault) (j : FaultInfo) (r : RegNo) : (s.raise f j).reg r = s.reg r := rfl

/-! ### `beginStep` -/

@[simp] theorem beginStep_v : (s.beginStep).v = s.v := rfl
@[simp] theorem beginStep_i : (s.beginStep).i = s.i := rfl
@[simp] theorem beginStep_pc : (s.beginStep).pc = s.pc := rfl
@[simp] theorem beginStep_stack : (s.beginStep).stack = s.stack := rfl
@[simp] theorem beginStep_sp : (s.beginStep).sp = s.sp := rfl
@[simp] theorem beginStep_dt : (s.beginStep).dt = s.dt := rfl
@[simp] theorem beginStep_st : (s.beginStep).st = s.st := rfl
@[simp] theorem beginStep_disp : (s.beginStep).disp = s.disp := rfl
@[simp] theorem beginStep_mem : (s.beginStep).mem = s.mem := rfl
@[simp] theorem beginStep_halt : (s.beginStep).halt = s.halt := rfl
@[simp] theorem beginStep_fault : (s.beginStep).fault = s.fault := rfl
@[simp] theorem beginStep_port : (s.beginStep).port = { s.port with insnAddr := s.pc, report := .ok, loadOpen := false } := rfl
@[simp] theorem beginStep_reg (r : RegNo) : (s.beginStep).reg r = s.reg r := rfl

/-! ### `holdOp` -/

@[simp] theorem holdOp_v (op : Word) : (s.holdOp op).v = s.v := rfl
@[simp] theorem holdOp_i (op : Word) : (s.holdOp op).i = s.i := rfl
@[simp] theorem holdOp_pc (op : Word) : (s.holdOp op).pc = s.pc := rfl
@[simp] theorem holdOp_stack (op : Word) : (s.holdOp op).stack = s.stack := rfl
@[simp] theorem holdOp_sp (op : Word) : (s.holdOp op).sp = s.sp := rfl
@[simp] theorem holdOp_dt (op : Word) : (s.holdOp op).dt = s.dt := rfl
@[simp] theorem holdOp_st (op : Word) : (s.holdOp op).st = s.st := rfl
@[simp] theorem holdOp_disp (op : Word) : (s.holdOp op).disp = s.disp := rfl
@[simp] theorem holdOp_mem (op : Word) : (s.holdOp op).mem = s.mem := rfl
@[simp] theorem holdOp_halt (op : Word) : (s.holdOp op).halt = s.halt := rfl
@[simp] theorem holdOp_fault (op : Word) : (s.holdOp op).fault = s.fault := rfl
@[simp] theorem holdOp_port (op : Word) : (s.holdOp op).port = { s.port with op := op } := rfl
@[simp] theorem holdOp_reg (op : Word) (r : RegNo) : (s.holdOp op).reg r = s.reg r := rfl

/-! ### `tick` -/

@[simp] theorem tick_v : (s.tick).v = s.v := rfl
@[simp] theorem tick_i : (s.tick).i = s.i := rfl
@[simp] theorem tick_pc : (s.tick).pc = s.pc := rfl
@[simp] theorem tick_stack : (s.tick).stack = s.stack := rfl
@[simp] theorem tick_sp : (s.tick).sp = s.sp := rfl
@[simp] theorem tick_dt : (s.tick).dt = if s.dt ≠ 0 then s.dt - 1 else s.dt := rfl
@[simp] theorem tick_st : (s.tick).st = if s.st ≠ 0 then s.st - 1 else s.st := rfl
@[simp] theorem tick_disp : (s.tick).disp = s.disp := rfl
@[simp] theorem tick_mem : (s.tick).mem = s.mem := rfl
@[simp] theorem tick_halt : (s.tick).halt = s.halt := rfl
@[simp] theorem tick_fault : (s.tick).fault = s.fault := rfl
@[simp] theorem tick_port : (s.tick).port = s.port := rfl
@[simp] theorem tick_reg (r : RegNo) : (s.tick).reg r = s.reg r := rfl

/-! ### `ticks` -/

@[simp] theorem ticks_v (n : Nat) : (s.ticks n).v = s.v := rfl
@[simp] theorem ticks_i (n : Nat) : (s.ticks n).i = s.i := rfl
@[simp] theorem ticks_pc (n : Nat) : (s.ticks n).pc = s.pc := rfl
@[simp] theorem ticks_stack (n : Nat) : (s.ticks n).stack = s.stack := rfl
@[simp] theorem ticks_sp (n : Nat) : (s.ticks n).sp = s.sp := rfl
@[simp] theorem ticks_dt (n : Nat) : (s.ticks n).dt = BitVec.ofNat 8 (s.dt.toNat - n) := rfl
@[simp] theorem ticks_st (n : Nat) : (s.ticks n).st = BitVec.ofNat 8 (s.st.toNat - n) := rfl
@[simp] theorem ticks_disp (n : Nat) : (s.ticks n).disp = s.disp := rfl
@[simp] theorem ticks_mem (n : Nat) : (s.ticks n).mem = s.mem := rfl
@[simp] theorem ticks_halt (n : Nat) : (s.ticks n).halt = s.halt := rfl
@[simp] theorem ticks_fault (n : Nat) : (s.ticks n).fault = s.fault := rfl
@[simp] theorem ticks_port (n : Nat) : (s.ticks n).port = s.port := rfl
@[simp] theorem ticks_reg (n : Nat) (r : RegNo) : (s.ticks n).reg r = s.reg r := rfl

/-! ### `consume` -/

@[simp] theorem consume_v : (s.consume).v = s.v := rfl
@[simp] theorem consume_i : (s.consume).i = s.i := rfl
@[simp] theorem consume_pc : (s.consume).pc = s.pc := rfl
@[simp] theorem consume_stack : (s.consume).stack = s.stack := rfl
@[simp] theorem consume_sp : (s.consume).sp = s.sp := rfl
@[simp] theorem consume_dt : (s.consume).dt = s.dt := rfl
@[simp] theorem consume_st : (s.consume).st = s.st := rfl
@[simp] theorem consume_disp : (s.consume).disp = s.disp := rfl
@[simp] theorem consume_mem : (s.consume).mem = s.mem := rfl
@[simp] theorem consume_halt : (s.consume).halt = s.halt := rfl
@[simp] theorem consume_fault : (s.consume).fault = s.fault := rfl
@[simp] theorem consume_port : (s.consume).port = { s.port with pending := s.port.pending.tail, draws := s.port.draws + 1 } := rfl
@[simp] theorem consume_reg (r : RegNo) : (s.consume).reg r = s.reg r := rfl

/-! ### `presentEnv` -/

@[simp] theorem presentEnv_v (e : Env) : (s.presentEnv e).v = s.v := rfl
@[simp] theorem presentEnv_i (e : Env) : (s.presentEnv e).i = s.i := rfl
@[simp] theorem presentEnv_pc (e : Env) : (s.presentEnv e).pc = s.pc := rfl
@[simp] theorem presentEnv_stack (e : Env) : (s.presentEnv e).stack = s.stack := rfl
@[simp] theorem presentEnv_sp (e : Env) : (s.presentEnv e).sp = s.sp := rfl
@[simp] theorem presentEnv_dt (e : Env) : (s.presentEnv e).dt = s.dt := rfl
@[simp] theorem presentEnv_st (e : Env) : (s.presentEnv e).st = s.st := rfl
@[simp] theorem presentEnv_disp (e : Env) : (s.presentEnv e).disp = s.disp := rfl
@[simp] theorem presentEnv_mem (e : Env) : (s.presentEnv e).mem = s.mem := rfl
@[simp] theorem presentEnv_halt (e : Env) : (s.presentEnv e).halt = s.halt := rfl
@[simp] theorem presentEnv_fault (e : Env) : (s.presentEnv e).fault = s.fault := rfl
@[simp] theorem presentEnv_port (e : Env) : (s.presentEnv e).port = { s.port with env := e } := rfl
@[simp] theorem presentEnv_reg (e : Env) (r : RegNo) : (s.presentEnv e).reg r = s.reg r := rfl

/-! ### Register contents after the register updates -/

@[simp] theorem setReg_reg (x : RegNo) (b : Byte) (r : RegNo) :
    (s.setReg x b).reg r = if r = x then b else s.reg r := by
  by_cases h : r = x
  · subst h; simp [reg, setReg]
  · have h' : x.val ≠ r.val := fun e => h (Fin.ext e.symm)
    simp [reg, setReg, h, h']

@[simp] theorem setFlagAndReg_reg (g : Byte) (x : RegNo) (b : Byte) (r : RegNo) :
    (s.setFlagAndReg g x b).reg r = if r = x then b else if r = vf then g else s.reg r := by
  simp [setFlagAndReg]

@[simp] theorem loadRegsUpTo_reg (x : RegNo) (bs : List Byte) (r : RegNo) :
    (s.loadRegsUpTo x bs).reg r = if r.val ≤ x.val then bs.getD r.val 0 else s.reg r := by
  simp [reg, loadRegsUpTo]

/-- Two register files with the same contents are equal. -/
theorem ext_reg {s t : State} (h : ∀ r, s.reg r = t.reg r) : s.v = t.v :=
  Vector.ext fun k hk => h ⟨k, hk⟩

/-! ### Conditional skip -/

theorem skipIf_eq (c : Bool) : s.skipIf c = { s with pc := if c then s.pc + 2 else s.pc } := by
  cases c <;> rfl

end Sys2Proof.Machine.State
end

