-- ==== Sys2Proof/Laws/Display.lean ====
section
/-! SUPPORT. What the compositing unit does to each row (R162, R163). -/

namespace Sys2Proof.Machine

@[simp] theorem drawSprite_nil (d : Display) (x y : Nat) : drawSprite d x y [] = (d, false) := rfl

theorem drawSprite_cons (d : Display) (x y : Nat) (b : Byte) (bs : List Byte) :
    drawSprite d x y (b :: bs) =
      ((drawSprite (drawRow d y (rowMask b x)).1 x (y + 1) bs).1,
       (drawRow d y (rowMask b x)).2 || (drawSprite (drawRow d y (rowMask b x)).1 x (y + 1) bs).2) := rfl

/-- One row drawn: row `r` XOR the mask, every other row as before. -/
theorem drawRow_getElem (d : Display) (r : Nat) (m : PixelRow) (k : Nat) (hk : k < 32) :
    (drawRow d r m).1[k] = if r = k then d[k] ^^^ m else d[k] := by
  unfold drawRow composeRow
  by_cases h : r < 32
  · by_cases e : r = k
    · subst e; simp [h]
    · simp [h, e]
  · have e : ¬ r = k := by omega
    simp [h, e]

/-- The collision of one row: a bit set both in the row and in the mask; never past row 31. -/
theorem drawRow_hit (d : Display) (r : Nat) (m : PixelRow) :
    (drawRow d r m).2 = if h : r < 32 then d[r] &&& m != 0 else false := by
  unfold drawRow composeRow
  by_cases h : r < 32 <;> simp [h]

/-- Two row words share a pixel exactly when some bit is on in both. -/
theorem row_meets (a m : PixelRow) : (a &&& m != 0) = true ↔ ∃ k, a.getLsbD k = true ∧ m.getLsbD k = true := by
  constructor
  · intro h
    by_contra hn
    refine (bne_iff_ne.mp h) (BitVec.eq_of_getLsbD_eq fun k _ => ?_)
    rw [BitVec.getLsbD_and, show (0 : PixelRow).getLsbD k = false from BitVec.getLsbD_zero, Bool.and_eq_false_iff]
    by_cases ha : a.getLsbD k = true
    · exact .inr (by simpa using fun hm => hn ⟨k, ha, hm⟩)
    · exact .inl (by simpa using ha)
  · rintro ⟨k, ha, hm⟩
    refine bne_iff_ne.mpr fun h => ?_
    have hk := congrArg (·.getLsbD k) h
    simp [ha, hm] at hk

/-- What `drawSprite` leaves in each row: the row XOR the mask of the sprite byte that falls on it. -/
theorem drawSprite_getElem (d : Display) (x y : Nat) (bs : List Byte) (k : Nat) (hk : k < 32) :
    (drawSprite d x y bs).1[k] =
      if y ≤ k ∧ k < y + bs.length then d[k] ^^^ rowMask (bs.getD (k - y) 0) x else d[k] := by
  induction bs generalizing d y with
  | nil => simp
  | cons b bs ih =>
    simp only [drawSprite_cons, ih, drawRow_getElem, List.length_cons]
    by_cases h : y = k
    · subst h
      simp
    · by_cases h2 : y + 1 ≤ k ∧ k < y + 1 + bs.length
      · have h3 : y ≤ k ∧ k < y + (bs.length + 1) := by omega
        have h4 : k - y = k - (y + 1) + 1 := by omega
        simp [h, h2, h3, h4]
      · have h3 : ¬ (y ≤ k ∧ k < y + (bs.length + 1)) := by omega
        rw [if_neg h2, if_neg h3, if_neg h]

/-- `drawSprite` reports a collision exactly when a sprite byte's mask meets the row it falls on. -/
theorem drawSprite_hit (d : Display) (x y : Nat) (bs : List Byte) :
    (drawSprite d x y bs).2 = true ↔
      ∃ j, ∃ h : y + j < 32, j < bs.length ∧ (d[y + j] &&& rowMask (bs.getD j 0) x != 0) = true := by
  induction bs generalizing d y with
  | nil => simp
  | cons b bs ih =>
    rw [drawSprite_cons, Bool.or_eq_true, drawRow_hit, ih]
    constructor
    · rintro (h | ⟨j, hj, hl, h⟩)
      · split at h
        · rename_i hy
          exact ⟨0, hy, by simp, h⟩
        · cases h
      · refine ⟨j + 1, by omega, by simpa using hl, ?_⟩
        rw [drawRow_getElem, if_neg (by omega)] at h
        simpa [Nat.add_comm 1 j, Nat.add_assoc] using h
    · rintro ⟨j, hj, hl, h⟩
      cases j with
      | zero => exact .inl (by rw [dif_pos (by omega)]; exact h)
      | succ j =>
        refine .inr ⟨j, by omega, by simpa using hl, ?_⟩
        rw [drawRow_getElem, if_neg (by omega)]
        simpa [Nat.add_comm 1 j, Nat.add_assoc] using h

end Sys2Proof.Machine
end

