-- ==== Sys2Proof/Laws/Memory.lean ====
section
/-! SUPPORT. The laws of memory: a read after a write, what a write leaves alone, and that every memory
operation keeps the canonical form (R40, R45 to R47, R147). -/

namespace Sys2Proof.Machine.Memory

/-! ### Contents -/

theorem lookup_eq_none_of_lt {font : Font} {a lo : Nat} {cs : List Host.Cell}
    (h : wfFrom font lo cs = true) (ha : a < lo) : lookup a cs = none := by
  induction cs generalizing lo with
  | nil => rfl
  | cons c cs ih =>
    simp only [wfFrom, Bool.and_eq_true, decide_eq_true_eq] at h
    obtain ⟨⟨⟨h1, _⟩, _⟩, h4⟩ := h
    have hc : c.1 ≠ a := by omega
    simp only [lookup, hc, if_false]
    exact ih h4 (by omega)

/-- What `insert` lists at each address, read with the background of that address. -/
theorem lookup_insert {font : Font} {lo a : Nat} {b : Byte} {cs : List Host.Cell}
    (h : wfFrom font lo cs = true) (k : Nat) :
    (lookup k (insert (unlisted font a) a b cs)).getD (unlisted font k) =
      if k = a then b else (lookup k cs).getD (unlisted font k) := by
  induction cs generalizing lo with
  | nil =>
    by_cases hb : b = unlisted font a <;> by_cases hk : k = a
    · subst hk; simp [insert, lookup, hb]
    · simp [insert, lookup, hb, hk]
    · subst hk; simp [insert, lookup, hb]
    · have : ¬ a = k := fun e => hk e.symm
      simp [insert, lookup, hb, hk, this]
  | cons c cs ih =>
    simp only [wfFrom, Bool.and_eq_true, decide_eq_true_eq] at h
    obtain ⟨_, h4⟩ := h
    have tail_none : c.1 = a → lookup a cs = none := fun e =>
      lookup_eq_none_of_lt h4 (by omega)
    have all_none : a < c.1 → lookup a cs = none := fun e =>
      lookup_eq_none_of_lt h4 (by omega)
    simp only [insert]
    by_cases h1 : c.1 < a
    · have hne : c.1 ≠ a := by omega
      simp only [h1, if_true, lookup]
      by_cases hk : c.1 = k
      · have : k ≠ a := by omega
        simp [hk, this]
      · simp only [hk, if_false]
        exact ih h4
    · simp only [h1, if_false]
      by_cases h2 : c.1 = a
      · simp only [h2, if_true]
        by_cases hb : b = unlisted font a <;> by_cases hk : k = a
        · subst hk; simp [hb, tail_none h2]
        · have : ¬ a = k := fun e => hk e.symm
          simp [hb, hk, lookup, h2, this]
        · subst hk; simp [hb, lookup]
        · have : ¬ a = k := fun e => hk e.symm
          simp [hb, hk, lookup, h2, this]
      · simp only [h2, if_false]
        by_cases hb : b = unlisted font a <;> by_cases hk : k = a
        · subst hk; simp [hb, lookup, h2, all_none (by omega)]
        · simp [hb, hk]
        · subst hk; simp [hb, lookup]
        · have : ¬ a = k := fun e => hk e.symm
          simp [hb, hk, lookup, this]

@[simp] theorem put_font (m : Memory) (a : Nat) (b : Byte) : (m.put a b).font = m.font := rfl

@[simp] theorem putAll_font (m : Memory) (a : Nat) (bs : List Byte) : (m.putAll a bs).font = m.font := by
  induction bs generalizing m a with
  | nil => rfl
  | cons b bs ih => simp [putAll, ih]

/-- A read after a write (R49): the byte written at its address, the old byte at every other. -/
theorem byte_put {m : Memory} (h : m.wf = true) (a : Nat) (b : Byte) (k : Nat) :
    (m.put a b).byte k = if k = a then b else m.byte k :=
  lookup_insert h k

/-! ### The canonical form -/

theorem wfFrom_mono {font : Font} {lo lo' : Nat} {cs : List Host.Cell}
    (h : wfFrom font lo cs = true) (hl : lo' ≤ lo) : wfFrom font lo' cs = true := by
  cases cs with
  | nil => rfl
  | cons c cs =>
    simp only [wfFrom, Bool.and_eq_true, decide_eq_true_eq] at h ⊢
    exact ⟨⟨⟨by omega, h.1.1.2⟩, h.1.2⟩, h.2⟩

theorem wfFrom_insert {font : Font} {lo a : Nat} {b : Byte} {cs : List Host.Cell}
    (h : wfFrom font lo cs = true) (hl : lo ≤ a) (ha : a < 4096) :
    wfFrom font lo (insert (unlisted font a) a b cs) = true := by
  induction cs generalizing lo with
  | nil =>
    by_cases hb : b = unlisted font a
    · simp [insert, hb, wfFrom]
    · simp [insert, hb, wfFrom, hl, ha]
  | cons c cs ih =>
    have hw := h
    simp only [wfFrom, Bool.and_eq_true, decide_eq_true_eq] at h
    obtain ⟨⟨⟨g1, g2⟩, g3⟩, g4⟩ := h
    simp only [insert]
    by_cases h1 : c.1 < a
    · simp only [h1, if_true, wfFrom, Bool.and_eq_true, decide_eq_true_eq]
      exact ⟨⟨⟨g1, g2⟩, g3⟩, ih g4 (by omega)⟩
    · simp only [h1, if_false]
      by_cases h2 : c.1 = a
      · simp only [h2, if_true]
        by_cases hb : b = unlisted font a
        · simp only [hb, if_true]
          exact wfFrom_mono g4 (by omega)
        · simp only [hb, if_false, wfFrom, Bool.and_eq_true, decide_eq_true_eq]
          exact ⟨⟨⟨hl, ha⟩, hb⟩, h2 ▸ g4⟩
      · simp only [h2, if_false]
        by_cases hb : b = unlisted font a
        · simp only [hb, if_true]
          exact hw
        · simp only [hb, if_false]
          have hc : wfFrom font (a + 1) (c :: cs) = true := by
            simp only [wfFrom, Bool.and_eq_true, decide_eq_true_eq]
            exact ⟨⟨⟨by omega, g2⟩, g3⟩, g4⟩
          rw [wfFrom]
          simp only [Bool.and_eq_true, decide_eq_true_eq]
          exact ⟨⟨⟨hl, ha⟩, hb⟩, hc⟩

theorem wf_put {m : Memory} (h : m.wf = true) {a : Nat} (ha : a < 4096) (b : Byte) :
    (m.put a b).wf = true :=
  wfFrom_insert h (Nat.zero_le a) ha

theorem wf_putAll {m : Memory} (h : m.wf = true) {a : Nat} (bs : List Byte) (ha : a + bs.length ≤ 4096) :
    (m.putAll a bs).wf = true := by
  induction bs generalizing m a with
  | nil => exact h
  | cons b bs ih =>
    simp only [List.length_cons] at ha
    exact ih (wf_put h (by omega) b) (by omega)

/-- The contents after storing consecutive bytes: the k-th byte at `a + k`, the old byte elsewhere. -/
theorem byte_putAll {m : Memory} (h : m.wf = true) {a : Nat} (bs : List Byte)
    (ha : a + bs.length ≤ 4096) (k : Nat) :
    (m.putAll a bs).byte k =
      if a ≤ k ∧ k < a + bs.length then bs.getD (k - a) 0 else m.byte k := by
  induction bs generalizing m a with
  | nil =>
    have : ¬ (a ≤ k ∧ k < a) := by omega
    simp [putAll, this]
  | cons b bs ih =>
    simp only [List.length_cons] at ha ⊢
    rw [putAll, ih (wf_put h (by omega) b) (by omega), byte_put h]
    by_cases hk : k = a
    · subst hk
      simp
    · by_cases hr : a ≤ k ∧ k < a + (bs.length + 1)
      · have h1 : a + 1 ≤ k ∧ k < a + 1 + bs.length := by omega
        have h2 : k - a = (k - (a + 1)) + 1 := by omega
        simp only [h1, hr, and_self, if_true, h2, List.getD_cons_succ]
      · have h1 : ¬ (a + 1 ≤ k ∧ k < a + 1 + bs.length) := by omega
        rw [if_neg h1, if_neg hk, if_neg hr]

/-- Reset memory is in canonical form: it lists nothing. -/
theorem wf_powerOn (font : Font) : (State.powerOn font).mem.wf = true := rfl

/-- Canonical memories of one FONT that hold the same bytes are equal data. -/
theorem cells_ext {font : Font} {lo : Nat} {cs ds : List Host.Cell}
    (hc : wfFrom font lo cs = true) (hd : wfFrom font lo ds = true)
    (h : ∀ k, (lookup k cs).getD (unlisted font k) = (lookup k ds).getD (unlisted font k)) : cs = ds := by
  induction cs generalizing lo ds with
  | nil =>
    cases ds with
    | nil => rfl
    | cons d ds =>
      simp only [wfFrom, Bool.and_eq_true, decide_eq_true_eq] at hd
      have := h d.1
      simp [lookup] at this
      exact absurd this.symm hd.1.2
  | cons c cs ih =>
    have hcw := hc
    simp only [wfFrom, Bool.and_eq_true, decide_eq_true_eq] at hc
    obtain ⟨⟨⟨c1, c2⟩, c3⟩, c4⟩ := hc
    cases ds with
    | nil =>
      have := h c.1
      simp [lookup] at this
      exact absurd this c3
    | cons d ds =>
      have hdw := hd
      simp only [wfFrom, Bool.and_eq_true, decide_eq_true_eq] at hd
      obtain ⟨⟨⟨d1, d2⟩, d3⟩, d4⟩ := hd
      have hcd : c.1 = d.1 := by
        rcases Nat.lt_trichotomy c.1 d.1 with hlt | heq | hgt
        · have hk := h c.1
          have hn : lookup c.1 (d :: ds) = none := by
            have hne : d.1 ≠ c.1 := by omega
            simp only [lookup, hne, if_false]
            exact lookup_eq_none_of_lt d4 (by omega)
          rw [hn] at hk
          simp [lookup] at hk
          exact absurd hk c3
        · exact heq
        · have hk := h d.1
          have hn : lookup d.1 (c :: cs) = none := by
            have hne : c.1 ≠ d.1 := by omega
            simp only [lookup, hne, if_false]
            exact lookup_eq_none_of_lt c4 (by omega)
          rw [hn] at hk
          simp [lookup] at hk
          exact absurd hk.symm d3
      have hv : c.2 = d.2 := by
        have hk := h c.1
        simpa [lookup, hcd] using hk
      have ht : cs = ds := by
        refine ih c4 (hcd ▸ d4) fun k => ?_
        by_cases hk : k = c.1
        · subst hk
          rw [lookup_eq_none_of_lt c4 (by omega), lookup_eq_none_of_lt d4 (by omega)]
        · have := h k
          have e1 : ¬ c.1 = k := fun e => hk e.symm
          have e2 : ¬ d.1 = k := fun e => hk (hcd.trans e).symm
          simpa [lookup, e1, e2] using this
      rw [ht, Prod.ext hcd hv]

/-! ### The bounds-checked operations -/

theorem read_eq (m : Memory) (a : Nat) :
    m.read a = if a < 4096 then .ok (m.byte a) else .error .addressOutOfRange := rfl

/-- What `readRange` answers: all the bytes, or AddressOutOfRange when the range leaves memory. -/
theorem readRange_eq (m : Memory) {a n : Nat} (ha : a < 4096) :
    m.readRange a n =
      if a + n ≤ 4096 then .ok ((List.range n).map fun k => m.byte (a + k)) else .error .addressOutOfRange := by
  unfold readRange
  have : (n = 0 ∨ a + n - 1 < 4096) ↔ a + n ≤ 4096 := by omega
  simp only [Config.memSize, this]

/-- What `writeRange` answers: the memory with all the bytes stored, or AddressOutOfRange. -/
theorem writeRange_eq (m : Memory) {a : Nat} (ha : a < 4096) (bs : List Byte) :
    m.writeRange a bs =
      if a + bs.length ≤ 4096 then .ok (m.putAll a bs) else .error .addressOutOfRange := by
  unfold writeRange
  have : (bs = [] ∨ a + bs.length - 1 < 4096) ↔ a + bs.length ≤ 4096 := by
    rw [← List.length_eq_zero_iff]; omega
  simp only [Config.memSize, this]

/-- A successful checked write keeps the canonical form. -/
theorem wf_write {m m' : Memory} {a : Nat} {b : Byte} (h : m.wf = true) (hw : m.write a b = .ok m') :
    m'.wf = true := by
  unfold write at hw
  split at hw
  · rename_i ha
    cases hw
    exact wf_put h (by simpa using ha) b
  · cases hw

/-- A successful range store keeps the canonical form. -/
theorem wf_writeRange {m m' : Memory} {a : Nat} {bs : List Byte} (h : m.wf = true) (ha : a < 4096)
    (hw : m.writeRange a bs = .ok m') : m'.wf = true := by
  rw [writeRange_eq m ha] at hw
  split at hw
  · cases hw
    exact wf_putAll h bs ‹_›
  · cases hw

end Sys2Proof.Machine.Memory
end

