-- ==== Sys2Proof/Laws/Ops.lean ====
section
/-! SUPPORT. One spec lemma per shared operation: everything it can answer. -/

namespace Sys2Proof.Machine

/-! ### The advance (R84) -/

theorem advancePc_toNat (pc : Word) :
    (advancePc pc).toNat = if 4096 ≤ pc.toNat + 2 then 0 else pc.toNat + 2 := by
  unfold advancePc
  by_cases h : 4096 ≤ pc.toNat + 2
  · simp [h]
  · simp only [Config.memSize, h, if_false]
    have : pc.toNat + 2 < 65536 := by omega
    simp [BitVec.toNat_add, Nat.mod_eq_of_lt this]

theorem advancePc_lt (pc : Word) : (advancePc pc).toNat < 4096 := by
  rw [advancePc_toNat]; split <;> omega

/-! ### The call stack (R17, R18) -/

/-- `push` either stores the address and counts it, or faults because 16 entries are in use. -/
theorem State.push_cases (s : State) (a : Word) :
    (∃ h : s.sp.val < 16, s.push a =
      .ok { s with stack := s.stack.set s.sp.val a h, sp := ⟨s.sp.val + 1, by omega⟩ }) ∨
    (s.sp.val = 16 ∧ s.push a = .error .stackOverflow) := by
  unfold State.push
  by_cases h : s.sp.val < 16
  · exact .inl ⟨h, by simp [h]⟩
  · exact .inr ⟨by omega, by simp [h]⟩

/-- `pop` either returns the top entry and uncounts it, or faults because no entry is in use. -/
theorem State.pop_cases (s : State) :
    (∃ h : 0 < s.sp.val, s.pop =
      .ok (s.stack[s.sp.val - 1]'(by omega), { s with sp := ⟨s.sp.val - 1, by omega⟩ })) ∨
    (s.sp.val = 0 ∧ s.pop = .error .stackUnderflow) := by
  unfold State.pop
  by_cases h : 0 < s.sp.val
  · exact .inl ⟨h, by simp [h]⟩
  · exact .inr ⟨by omega, by simp [h]⟩

/-! ### Ending an instruction that may raise (R207) -/

@[simp] theorem State.orRaise_ok (s t : State) : s.orRaise (.ok t) = .next t := rfl

@[simp] theorem State.orRaise_error (s : State) (f : Fault) :
    s.orRaise (.error f) = .next (s.raiseInsn f) := rfl

/-- An instruction that may raise answers its effect, or the state before it with the fault latched. -/
theorem State.orRaise_cases {s t : State} {r : Except Fault State} (h : s.orRaise r = .next t) :
    r = .ok t ∨ ∃ f, r = .error f ∧ t = s.raiseInsn f := by
  cases r with
  | ok u => simp only [State.orRaise_ok, Host.Outcome.next.injEq] at h; exact .inl (h ▸ rfl)
  | error f => simp only [State.orRaise_error, Host.Outcome.next.injEq] at h; exact .inr ⟨f, rfl, h.symm⟩

/-! ### Stores and loads at I (R144, R145, R147) -/

/-- The data base is a valid address (R20). -/
theorem State.base_lt (s : State) : s.base < 4096 := s.i.isLt

/-- A store at I: all the bytes, or AddressOutOfRange with nothing stored. -/
theorem State.storeAtI_eq (s : State) (bs : List Byte) :
    s.storeAtI bs =
      if s.base + bs.length ≤ 4096 then .next (s.setMem (s.mem.putAll s.base bs))
      else .next (s.raiseInsn .addressOutOfRange) := by
  unfold State.storeAtI
  rw [Memory.writeRange_eq s.mem s.base_lt]
  by_cases h : s.base + bs.length ≤ 4096 <;> simp [h]

theorem State.regsUpTo_length (s : State) (x : RegNo) : (s.regsUpTo x).length = x.val + 1 := by
  have := x.isLt
  simp only [State.regsUpTo, List.length_take, Vector.length_toList]
  omega

theorem State.regsUpTo_getD (s : State) (x : RegNo) (r : RegNo) (h : r.val ≤ x.val) :
    (s.regsUpTo x).getD r.val 0 = s.reg r := by
  have h1 : r.val < x.val + 1 := by omega
  have h2 : r.val < s.v.toList.length := by simp
  simp [State.regsUpTo, h1, State.reg]

theorem bcdDigits_length (b : Byte) : (bcdDigits b).length = 3 := rfl

/-! ### Fetch (R82, R83) -/

/-- A fetch succeeds below address 4095 and raises AddressOutOfRange from there on. -/
theorem State.fetch_eq (s : State) :
    s.fetch = if s.pc.toNat < 4095 then
        .ok (joinBytes (s.mem.byte s.pc.toNat) (s.mem.byte (s.pc.toNat + 1)))
      else .error .addressOutOfRange := by
  unfold State.fetch
  rw [Memory.read_eq, Memory.read_eq]
  by_cases h1 : s.pc.toNat < 4096
  · by_cases h2 : s.pc.toNat + 1 < 4096
    · have h3 : s.pc.toNat < 4095 := by omega
      simp [h1, h2, h3]
    · have h3 : ¬ s.pc.toNat < 4095 := by omega
      simp [h1, h2, h3]
  · have h3 : ¬ s.pc.toNat < 4095 := by omega
    simp [h1, h3]

theorem State.fetch_congr {s t : State} (hm : t.mem = s.mem) (hp : t.pc = s.pc) : t.fetch = s.fetch := by
  simp only [State.fetch, hm, hp]

/-! ### Between steps (R89, R183) -/

@[simp] theorem State.arrive_halt (s : State) : s.arrive.halt = s.halt := rfl
@[simp] theorem State.arrive_mem (s : State) : s.arrive.mem = s.mem := rfl
@[simp] theorem State.arrive_pc (s : State) : s.arrive.pc = s.pc := rfl
@[simp] theorem State.arrive_fetch (s : State) : s.arrive.fetch = s.fetch := rfl

/-- No ticks. -/
theorem State.ticks_zero (s : State) : s.ticks 0 = s := by
  simp [State.ticks]

/-- The closed form of `n + 1` ticks is one tick, then `n`. -/
theorem State.ticks_succ (s : State) (n : Nat) : s.ticks (n + 1) = s.tick.ticks n := by
  have h : ∀ b : Byte, (if b ≠ 0 then b - 1 else b).toNat = b.toNat - 1 := by
    intro b
    split
    · rename_i hb
      have h0 : b.toNat ≠ 0 := fun e => hb (BitVec.eq_of_toNat_eq e)
      have h1 := b.isLt
      rw [BitVec.toNat_sub]
      simp
      omega
    · simp_all
  simp only [State.ticks, State.tick, h, Nat.sub_sub, Nat.add_comm n 1]

/-! ### One step of the Engine (R81): everything it can do -/

/-- The Engine's step is one of four: halted, a fetch fault, an invalid word, or the decoded instruction
executed on the advanced state. -/
theorem engineStep_cases (s : State) :
    (s.halt = true ∧ engineStep s = .next (s.setReport (.fatal s.fault .latched))) ∨
    (s.halt = false ∧ 4095 ≤ s.pc.toNat ∧
      engineStep s = .next (s.beginStep.raise .addressOutOfRange (.fetch s.pc))) ∨
    (∃ op e, s.halt = false ∧ s.fetch = .ok op ∧ decodeOp op = .error e ∧
      engineStep s = .next ((s.beginStep.holdOp op).advance.setReport (.invalid s.pc op))) ∨
    (∃ op i, s.halt = false ∧ s.fetch = .ok op ∧ decodeOp op = .ok i ∧
      engineStep s = exec i (s.beginStep.holdOp op).advance) := by
  unfold engineStep
  cases hh : s.halt with
  | true => exact .inl ⟨rfl, by simp⟩
  | false =>
    right
    by_cases hp : s.pc.toNat < 4095
    · right
      have hf := s.fetch_eq
      rw [if_pos hp] at hf
      cases hd : decodeOp (joinBytes (s.mem.byte s.pc.toNat) (s.mem.byte (s.pc.toNat + 1))) with
      | error e => exact .inl ⟨_, e, rfl, hf, hd, by simp [hf, hd]⟩
      | ok i => exact .inr ⟨_, i, rfl, hf, hd, by simp [hf, hd]⟩
    · have hf := s.fetch_eq
      rw [if_neg hp] at hf
      exact .inl ⟨rfl, by omega, by simp [hf]⟩

end Sys2Proof.Machine
end

