-- ==== Sys2Proof/Laws/PerInstr.lean ====
section
/-! SUPPORT. The per-instruction family `CanonicalEncoding`: the word of each instruction stands on the
instruction's row of the opcode map (R65) and has every ignored bit zero (R67, R70). -/

namespace Sys2Proof.Laws.CanonicalEncoding

/-- The encoding of an instruction matches its row and is canonical. -/
def Statement (i : Instr) : Prop := i.row.hits (encode i) = true ∧ canonicalWord (encode i) = true

/-! ### Format by format -/

theorem formatA_masked (f : BitVec 4) (nnn : Addr) : formatA f nnn &&& 0xF000 = formatA f 0 := by
  apply BitVec.eq_of_getLsbD_eq
  intro k hk
  have hm : (0xF000 : Word).getLsbD k = decide (12 ≤ k) := by revert k; decide
  simp only [BitVec.getLsbD_and, formatA_bit]
  rw [hm]
  by_cases h : k < 12
  · have h' : ¬ 12 ≤ k := by omega
    simp [h]
  · have h' : 12 ≤ k := by omega
    simp [h, h']

theorem formatXK_masked (f : BitVec 4) (x : RegNo) (kk : Byte) :
    formatXK f x kk &&& 0xF000 = formatXK f 0 0 := by
  apply BitVec.eq_of_getLsbD_eq
  intro k hk
  have hm : (0xF000 : Word).getLsbD k = decide (12 ≤ k) := by revert k; decide
  simp only [BitVec.getLsbD_and, formatXK_bit]
  rw [hm]
  by_cases h : k < 8
  · have h' : ¬ 12 ≤ k := by omega
    simp [h, h']
  · by_cases h2 : k - 8 < 4
    · have h' : ¬ 12 ≤ k := by omega
      simp [h, h2, h', show (BitVec.ofFin (0 : Fin 16) : BitVec 4) = 0 from rfl]
    · have h' : 12 ≤ k := by omega
      simp [h, h2, h']

theorem formatXK_masked_sub (f : BitVec 4) (x : RegNo) (kk : Byte) :
    formatXK f x kk &&& 0xF0FF = formatXK f 0 kk := by
  apply BitVec.eq_of_getLsbD_eq
  intro k hk
  have hm : (0xF0FF : Word).getLsbD k = (decide (k < 8) || decide (12 ≤ k)) := by revert k; decide
  simp only [BitVec.getLsbD_and, formatXK_bit]
  rw [hm]
  by_cases h : k < 8
  · simp [h]
  · by_cases h2 : k - 8 < 4
    · have h' : ¬ 12 ≤ k := by omega
      simp [h, h2, h', show (BitVec.ofFin (0 : Fin 16) : BitVec 4) = 0 from rfl]
    · have h' : 12 ≤ k := by omega
      simp [h, h2, h']

theorem formatXYN_masked (f : BitVec 4) (x y : RegNo) (n : Fin 16) :
    formatXYN f x y n &&& 0xF000 = formatXYN f 0 0 0 := by
  apply BitVec.eq_of_getLsbD_eq
  intro k hk
  have hm : (0xF000 : Word).getLsbD k = decide (12 ≤ k) := by revert k; decide
  have hz : (BitVec.ofFin (0 : Fin 16) : BitVec 4) = 0 := rfl
  simp only [BitVec.getLsbD_and, formatXYN_bit]
  rw [hm, hz]
  by_cases h' : 12 ≤ k
  · have h1 : ¬ k < 4 := by omega
    have h2 : ¬ k - 4 < 4 := by omega
    have h3 : ¬ k - 4 - 4 < 4 := by omega
    simp [h1, h2, h3, h']
  · have h3 : k - 4 - 4 < 4 := by omega
    simp [h', h3]

theorem formatXYN_masked_op (f : BitVec 4) (x y : RegNo) (n : Fin 16) :
    formatXYN f x y n &&& 0xF00F = formatXYN f 0 0 n := by
  apply BitVec.eq_of_getLsbD_eq
  intro k hk
  have hm : (0xF00F : Word).getLsbD k = (decide (k < 4) || decide (12 ≤ k)) := by revert k; decide
  have hz : (BitVec.ofFin (0 : Fin 16) : BitVec 4) = 0 := rfl
  simp only [BitVec.getLsbD_and, formatXYN_bit]
  rw [hm, hz]
  by_cases h0 : k < 4
  · simp [h0]
  · by_cases h' : 12 ≤ k
    · have h2 : ¬ k - 4 < 4 := by omega
      have h3 : ¬ k - 4 - 4 < 4 := by omega
      simp [h0, h2, h3, h']
    · have h3 : k - 4 - 4 < 4 := by omega
      simp [h0, h', h3]

/-- A word outside families 0, 5 and 9 has no ignored bit. -/
theorem canonical_of_family {op : Word} (h0 : opFamily op ≠ 0x0) (h5 : opFamily op ≠ 0x5)
    (h9 : opFamily op ≠ 0x9) : canonicalWord op = true := by
  unfold opFamily at h0 h5 h9
  rw [canonicalWord, ignoredBits, if_neg h0, if_neg h5, if_neg h9]
  simp

/-- A word of formats XY in families 5 and 9 with a zero low nibble is canonical. -/
theorem canonical_formatXYN_zero (f : BitVec 4) (x y : RegNo) (h : f = 0x5 ∨ f = 0x9) :
    canonicalWord (formatXYN f x y 0) = true := by
  have hf : (formatXYN f x y 0).extractLsb' 12 4 = f := opFamily_formatXYN f x y 0
  have hm : ignoredBits (formatXYN f x y 0) = 0x000F := by
    rcases h with h | h <;> subst h <;> rw [ignoredBits, hf] <;> decide
  rw [canonicalWord, hm, beq_iff_eq]
  apply BitVec.eq_of_getLsbD_eq
  intro k hk
  have hl : (0x000F : Word).getLsbD k = decide (k < 4) := by revert k; decide
  have hz : (BitVec.ofFin (0 : Fin 16) : BitVec 4) = 0 := rfl
  simp only [BitVec.getLsbD_and, formatXYN_bit]
  rw [hl, hz]
  by_cases h0 : k < 4 <;> simp [h0]

/-! ### One lemma per instruction -/

theorem cls : Statement (.cls) :=
  ⟨by decide, by decide⟩

theorem ret : Statement (.ret) :=
  ⟨by decide, by decide⟩

theorem jp (nnn : Addr) : Statement (.jp nnn) :=
  ⟨by
    rw [Instr.row, encode, OpRow.hits, formatA_masked]; decide,
   canonical_of_family (by rw [encode, opFamily_formatA]; decide) (by rw [encode, opFamily_formatA]; decide) (by rw [encode, opFamily_formatA]; decide)⟩

theorem call (nnn : Addr) : Statement (.call nnn) :=
  ⟨by
    rw [Instr.row, encode, OpRow.hits, formatA_masked]; decide,
   canonical_of_family (by rw [encode, opFamily_formatA]; decide) (by rw [encode, opFamily_formatA]; decide) (by rw [encode, opFamily_formatA]; decide)⟩

theorem seVxKk (x : RegNo) (kk : Byte) : Statement (.seVxKk x kk) :=
  ⟨by
    rw [Instr.row, encode, OpRow.hits, formatXK_masked]; decide,
   canonical_of_family (by rw [encode, opFamily_formatXK]; decide) (by rw [encode, opFamily_formatXK]; decide) (by rw [encode, opFamily_formatXK]; decide)⟩

theorem sneVxKk (x : RegNo) (kk : Byte) : Statement (.sneVxKk x kk) :=
  ⟨by
    rw [Instr.row, encode, OpRow.hits, formatXK_masked]; decide,
   canonical_of_family (by rw [encode, opFamily_formatXK]; decide) (by rw [encode, opFamily_formatXK]; decide) (by rw [encode, opFamily_formatXK]; decide)⟩

theorem seVxVy (x y : RegNo) : Statement (.seVxVy x y) :=
  ⟨by
    rw [Instr.row, encode, OpRow.hits, formatXYN_masked]; decide,
   canonical_formatXYN_zero 0x5 x y (by decide)⟩

theorem ldVxKk (x : RegNo) (kk : Byte) : Statement (.ldVxKk x kk) :=
  ⟨by
    rw [Instr.row, encode, OpRow.hits, formatXK_masked]; decide,
   canonical_of_family (by rw [encode, opFamily_formatXK]; decide) (by rw [encode, opFamily_formatXK]; decide) (by rw [encode, opFamily_formatXK]; decide)⟩

theorem addVxKk (x : RegNo) (kk : Byte) : Statement (.addVxKk x kk) :=
  ⟨by
    rw [Instr.row, encode, OpRow.hits, formatXK_masked]; decide,
   canonical_of_family (by rw [encode, opFamily_formatXK]; decide) (by rw [encode, opFamily_formatXK]; decide) (by rw [encode, opFamily_formatXK]; decide)⟩

theorem ldVxVy (x y : RegNo) : Statement (.ldVxVy x y) :=
  ⟨by
    rw [Instr.row, encode, OpRow.hits, formatXYN_masked_op]; decide,
   canonical_of_family (by rw [encode, opFamily_formatXYN]; decide) (by rw [encode, opFamily_formatXYN]; decide) (by rw [encode, opFamily_formatXYN]; decide)⟩

theorem orVxVy (x y : RegNo) : Statement (.orVxVy x y) :=
  ⟨by
    rw [Instr.row, encode, OpRow.hits, formatXYN_masked_op]; decide,
   canonical_of_family (by rw [encode, opFamily_formatXYN]; decide) (by rw [encode, opFamily_formatXYN]; decide) (by rw [encode, opFamily_formatXYN]; decide)⟩

theorem andVxVy (x y : RegNo) : Statement (.andVxVy x y) :=
  ⟨by
    rw [Instr.row, encode, OpRow.hits, formatXYN_masked_op]; decide,
   canonical_of_family (by rw [encode, opFamily_formatXYN]; decide) (by rw [encode, opFamily_formatXYN]; decide) (by rw [encode, opFamily_formatXYN]; decide)⟩

theorem xorVxVy (x y : RegNo) : Statement (.xorVxVy x y) :=
  ⟨by
    rw [Instr.row, encode, OpRow.hits, formatXYN_masked_op]; decide,
   canonical_of_family (by rw [encode, opFamily_formatXYN]; decide) (by rw [encode, opFamily_formatXYN]; decide) (by rw [encode, opFamily_formatXYN]; decide)⟩

theorem addVxVy (x y : RegNo) : Statement (.addVxVy x y) :=
  ⟨by
    rw [Instr.row, encode, OpRow.hits, formatXYN_masked_op]; decide,
   canonical_of_family (by rw [encode, opFamily_formatXYN]; decide) (by rw [encode, opFamily_formatXYN]; decide) (by rw [encode, opFamily_formatXYN]; decide)⟩

theorem sub (x y : RegNo) : Statement (.sub x y) :=
  ⟨by
    rw [Instr.row, encode, OpRow.hits, formatXYN_masked_op]; decide,
   canonical_of_family (by rw [encode, opFamily_formatXYN]; decide) (by rw [encode, opFamily_formatXYN]; decide) (by rw [encode, opFamily_formatXYN]; decide)⟩

theorem shr (x y : RegNo) : Statement (.shr x y) :=
  ⟨by
    rw [Instr.row, encode, OpRow.hits, formatXYN_masked_op]; decide,
   canonical_of_family (by rw [encode, opFamily_formatXYN]; decide) (by rw [encode, opFamily_formatXYN]; decide) (by rw [encode, opFamily_formatXYN]; decide)⟩

theorem subn (x y : RegNo) : Statement (.subn x y) :=
  ⟨by
    rw [Instr.row, encode, OpRow.hits, formatXYN_masked_op]; decide,
   canonical_of_family (by rw [encode, opFamily_formatXYN]; decide) (by rw [encode, opFamily_formatXYN]; decide) (by rw [encode, opFamily_formatXYN]; decide)⟩

theorem shl (x y : RegNo) : Statement (.shl x y) :=
  ⟨by
    rw [Instr.row, encode, OpRow.hits, formatXYN_masked_op]; decide,
   canonical_of_family (by rw [encode, opFamily_formatXYN]; decide) (by rw [encode, opFamily_formatXYN]; decide) (by rw [encode, opFamily_formatXYN]; decide)⟩

theorem sneVxVy (x y : RegNo) : Statement (.sneVxVy x y) :=
  ⟨by
    rw [Instr.row, encode, OpRow.hits, formatXYN_masked]; decide,
   canonical_formatXYN_zero 0x9 x y (by decide)⟩

theorem ldINnn (nnn : Addr) : Statement (.ldINnn nnn) :=
  ⟨by
    rw [Instr.row, encode, OpRow.hits, formatA_masked]; decide,
   canonical_of_family (by rw [encode, opFamily_formatA]; decide) (by rw [encode, opFamily_formatA]; decide) (by rw [encode, opFamily_formatA]; decide)⟩

theorem jpV0 (nnn : Addr) : Statement (.jpV0 nnn) :=
  ⟨by
    rw [Instr.row, encode, OpRow.hits, formatA_masked]; decide,
   canonical_of_family (by rw [encode, opFamily_formatA]; decide) (by rw [encode, opFamily_formatA]; decide) (by rw [encode, opFamily_formatA]; decide)⟩

theorem rnd (x : RegNo) (kk : Byte) : Statement (.rnd x kk) :=
  ⟨by
    rw [Instr.row, encode, OpRow.hits, formatXK_masked]; decide,
   canonical_of_family (by rw [encode, opFamily_formatXK]; decide) (by rw [encode, opFamily_formatXK]; decide) (by rw [encode, opFamily_formatXK]; decide)⟩

theorem drw (x y : RegNo) (n : Fin 16) : Statement (.drw x y n) :=
  ⟨by
    rw [Instr.row, encode, OpRow.hits, formatXYN_masked]; decide,
   canonical_of_family (by rw [encode, opFamily_formatXYN]; decide) (by rw [encode, opFamily_formatXYN]; decide) (by rw [encode, opFamily_formatXYN]; decide)⟩

theorem skp (x : RegNo) : Statement (.skp x) :=
  ⟨by
    rw [Instr.row, encode, OpRow.hits, formatXK_masked_sub]; decide,
   canonical_of_family (by rw [encode, opFamily_formatXK]; decide) (by rw [encode, opFamily_formatXK]; decide) (by rw [encode, opFamily_formatXK]; decide)⟩

theorem sknp (x : RegNo) : Statement (.sknp x) :=
  ⟨by
    rw [Instr.row, encode, OpRow.hits, formatXK_masked_sub]; decide,
   canonical_of_family (by rw [encode, opFamily_formatXK]; decide) (by rw [encode, opFamily_formatXK]; decide) (by rw [encode, opFamily_formatXK]; decide)⟩

theorem ldVxDt (x : RegNo) : Statement (.ldVxDt x) :=
  ⟨by
    rw [Instr.row, encode, OpRow.hits, formatXK_masked_sub]; decide,
   canonical_of_family (by rw [encode, opFamily_formatXK]; decide) (by rw [encode, opFamily_formatXK]; decide) (by rw [encode, opFamily_formatXK]; decide)⟩

theorem ldVxK (x : RegNo) : Statement (.ldVxK x) :=
  ⟨by
    rw [Instr.row, encode, OpRow.hits, formatXK_masked_sub]; decide,
   canonical_of_family (by rw [encode, opFamily_formatXK]; decide) (by rw [encode, opFamily_formatXK]; decide) (by rw [encode, opFamily_formatXK]; decide)⟩

theorem ldDtVx (x : RegNo) : Statement (.ldDtVx x) :=
  ⟨by
    rw [Instr.row, encode, OpRow.hits, formatXK_masked_sub]; decide,
   canonical_of_family (by rw [encode, opFamily_formatXK]; decide) (by rw [encode, opFamily_formatXK]; decide) (by rw [encode, opFamily_formatXK]; decide)⟩

theorem ldStVx (x : RegNo) : Statement (.ldStVx x) :=
  ⟨by
    rw [Instr.row, encode, OpRow.hits, formatXK_masked_sub]; decide,
   canonical_of_family (by rw [encode, opFamily_formatXK]; decide) (by rw [encode, opFamily_formatXK]; decide) (by rw [encode, opFamily_formatXK]; decide)⟩

theorem addIVx (x : RegNo) : Statement (.addIVx x) :=
  ⟨by
    rw [Instr.row, encode, OpRow.hits, formatXK_masked_sub]; decide,
   canonical_of_family (by rw [encode, opFamily_formatXK]; decide) (by rw [encode, opFamily_formatXK]; decide) (by rw [encode, opFamily_formatXK]; decide)⟩

theorem ldFVx (x : RegNo) : Statement (.ldFVx x) :=
  ⟨by
    rw [Instr.row, encode, OpRow.hits, formatXK_masked_sub]; decide,
   canonical_of_family (by rw [encode, opFamily_formatXK]; decide) (by rw [encode, opFamily_formatXK]; decide) (by rw [encode, opFamily_formatXK]; decide)⟩

theorem ldBVx (x : RegNo) : Statement (.ldBVx x) :=
  ⟨by
    rw [Instr.row, encode, OpRow.hits, formatXK_masked_sub]; decide,
   canonical_of_family (by rw [encode, opFamily_formatXK]; decide) (by rw [encode, opFamily_formatXK]; decide) (by rw [encode, opFamily_formatXK]; decide)⟩

theorem ldMiVx (x : RegNo) : Statement (.ldMiVx x) :=
  ⟨by
    rw [Instr.row, encode, OpRow.hits, formatXK_masked_sub]; decide,
   canonical_of_family (by rw [encode, opFamily_formatXK]; decide) (by rw [encode, opFamily_formatXK]; decide) (by rw [encode, opFamily_formatXK]; decide)⟩

theorem ldVxMi (x : RegNo) : Statement (.ldVxMi x) :=
  ⟨by
    rw [Instr.row, encode, OpRow.hits, formatXK_masked_sub]; decide,
   canonical_of_family (by rw [encode, opFamily_formatXK]; decide) (by rw [encode, opFamily_formatXK]; decide) (by rw [encode, opFamily_formatXK]; decide)⟩

end Sys2Proof.Laws.CanonicalEncoding
end

