-- ==== Sys2Proof/Tests/Slice0.lean ====
section
/-! SUPPORT. Tests. Expected results are those of spec/95_test_vectors.md (the vector's id stands in the
test's name) or are read from the rule cited; none is the model's own output. The witness_ theorems show
states and operands that meet the hypotheses of the obligation they name; the hypothesis of `RowMeans`, a
word on an instruction's row, is met by the word of `test_decode_<constructor>`. -/

namespace Sys2Proof.Tests

open Sys2Proof.Machine Sys2Proof.Claims

/-! ### Well-formedness (R67, R233) -/

theorem test_canonical_accepts : canonicalWord 0x5120 = true := by decide
theorem test_canonical_refuses_family0 : canonicalWord 0x07EE = false := by decide
theorem test_canonical_refuses_family5 : canonicalWord 0x5127 = false := by decide
theorem test_canonical_refuses_family9 : canonicalWord 0x912F = false := by decide
theorem test_image_refuses_3585 (image : List Byte) (h : image.length = 3585) : imageFits image = false := by
  simp [imageFits, h]
theorem test_image_accepts_3584 (image : List Byte) (h : image.length = 3584) : imageFits image = true := by
  simp [imageFits, h]

/-! ### Decoding: for each row of R65 a word written out from its pattern, with the row's mask -/

theorem test_decode_cls : 0x00E0#16 &&& 0xF0FF = 0x00E0 ∧ decodeOp 0x00E0 = .ok (.cls) := by decide
theorem test_decode_ret : 0x00EE#16 &&& 0xF0FF = 0x00EE ∧ decodeOp 0x00EE = .ok (.ret) := by decide
theorem test_decode_jp : 0x1ABC#16 &&& 0xF000 = 0x1000 ∧ decodeOp 0x1ABC = .ok (.jp 0xABC) := by decide
theorem test_decode_call : 0x2ABC#16 &&& 0xF000 = 0x2000 ∧ decodeOp 0x2ABC = .ok (.call 0xABC) := by decide
theorem test_decode_seVxKk : 0x3A42#16 &&& 0xF000 = 0x3000 ∧ decodeOp 0x3A42 = .ok (.seVxKk 0xA 0x42) := by decide
theorem test_decode_sneVxKk : 0x4A42#16 &&& 0xF000 = 0x4000 ∧ decodeOp 0x4A42 = .ok (.sneVxKk 0xA 0x42) := by decide
theorem test_decode_seVxVy : 0x5120#16 &&& 0xF000 = 0x5000 ∧ decodeOp 0x5120 = .ok (.seVxVy 1 2) := by decide
theorem test_decode_ldVxKk : 0x6AFF#16 &&& 0xF000 = 0x6000 ∧ decodeOp 0x6AFF = .ok (.ldVxKk 0xA 0xFF) := by decide
theorem test_decode_addVxKk : 0x7105#16 &&& 0xF000 = 0x7000 ∧ decodeOp 0x7105 = .ok (.addVxKk 1 0x05) := by decide
theorem test_decode_ldVxVy : 0x8120#16 &&& 0xF00F = 0x8000 ∧ decodeOp 0x8120 = .ok (.ldVxVy 1 2) := by decide
theorem test_decode_orVxVy : 0x8121#16 &&& 0xF00F = 0x8001 ∧ decodeOp 0x8121 = .ok (.orVxVy 1 2) := by decide
theorem test_decode_andVxVy : 0x8122#16 &&& 0xF00F = 0x8002 ∧ decodeOp 0x8122 = .ok (.andVxVy 1 2) := by decide
theorem test_decode_xorVxVy : 0x8123#16 &&& 0xF00F = 0x8003 ∧ decodeOp 0x8123 = .ok (.xorVxVy 1 2) := by decide
theorem test_decode_addVxVy : 0x81F4#16 &&& 0xF00F = 0x8004 ∧ decodeOp 0x81F4 = .ok (.addVxVy 1 0xF) := by decide
theorem test_decode_sub : 0x8F15#16 &&& 0xF00F = 0x8005 ∧ decodeOp 0x8F15 = .ok (.sub 0xF 1) := by decide
theorem test_decode_shr : 0x81E6#16 &&& 0xF00F = 0x8006 ∧ decodeOp 0x81E6 = .ok (.shr 1 0xE) := by decide
theorem test_decode_subn : 0x8127#16 &&& 0xF00F = 0x8007 ∧ decodeOp 0x8127 = .ok (.subn 1 2) := by decide
theorem test_decode_shl : 0x812E#16 &&& 0xF00F = 0x800E ∧ decodeOp 0x812E = .ok (.shl 1 2) := by decide
theorem test_decode_sneVxVy : 0x9120#16 &&& 0xF000 = 0x9000 ∧ decodeOp 0x9120 = .ok (.sneVxVy 1 2) := by decide
theorem test_decode_ldINnn : 0xA202#16 &&& 0xF000 = 0xA000 ∧ decodeOp 0xA202 = .ok (.ldINnn 0x202) := by decide
theorem test_decode_jpV0 : 0xB300#16 &&& 0xF000 = 0xB000 ∧ decodeOp 0xB300 = .ok (.jpV0 0x300) := by decide
theorem test_decode_rnd : 0xC10F#16 &&& 0xF000 = 0xC000 ∧ decodeOp 0xC10F = .ok (.rnd 1 0x0F) := by decide
theorem test_decode_drw : 0xD015#16 &&& 0xF000 = 0xD000 ∧ decodeOp 0xD015 = .ok (.drw 0 1 5) := by decide
theorem test_decode_skp : 0xE59E#16 &&& 0xF0FF = 0xE09E ∧ decodeOp 0xE59E = .ok (.skp 5) := by decide
theorem test_decode_sknp : 0xE5A1#16 &&& 0xF0FF = 0xE0A1 ∧ decodeOp 0xE5A1 = .ok (.sknp 5) := by decide
theorem test_decode_ldVxDt : 0xF307#16 &&& 0xF0FF = 0xF007 ∧ decodeOp 0xF307 = .ok (.ldVxDt 3) := by decide
theorem test_decode_ldVxK : 0xF20A#16 &&& 0xF0FF = 0xF00A ∧ decodeOp 0xF20A = .ok (.ldVxK 2) := by decide
theorem test_decode_ldDtVx : 0xF315#16 &&& 0xF0FF = 0xF015 ∧ decodeOp 0xF315 = .ok (.ldDtVx 3) := by decide
theorem test_decode_ldStVx : 0xF318#16 &&& 0xF0FF = 0xF018 ∧ decodeOp 0xF318 = .ok (.ldStVx 3) := by decide
theorem test_decode_addIVx : 0xF21E#16 &&& 0xF0FF = 0xF01E ∧ decodeOp 0xF21E = .ok (.addIVx 2) := by decide
theorem test_decode_ldFVx : 0xF229#16 &&& 0xF0FF = 0xF029 ∧ decodeOp 0xF229 = .ok (.ldFVx 2) := by decide
theorem test_decode_ldBVx : 0xF333#16 &&& 0xF0FF = 0xF033 ∧ decodeOp 0xF333 = .ok (.ldBVx 3) := by decide
theorem test_decode_ldMiVx : 0xF155#16 &&& 0xF0FF = 0xF055 ∧ decodeOp 0xF155 = .ok (.ldMiVx 1) := by decide
theorem test_decode_ldVxMi : 0xF265#16 &&& 0xF0FF = 0xF065 ∧ decodeOp 0xF265 = .ok (.ldVxMi 2) := by decide

theorem test_decode_invalid_words0 : decodeOp 0x0000 = .error (.invalidInstruction 0x0000) ∧
    decodeOp 0x00E1 = .error (.invalidInstruction 0x00E1) ∧ decodeOp 0x0123 = .error (.invalidInstruction 0x0123) := by decide
theorem test_decode_invalid_words8 : decodeOp 0x8009 = .error (.invalidInstruction 0x8009) ∧
    decodeOp 0x812F = .error (.invalidInstruction 0x812F) := by decide
theorem test_decode_invalid_wordsF : decodeOp 0xE0A0 = .error (.invalidInstruction 0xE0A0) ∧
    decodeOp 0xF000 = .error (.invalidInstruction 0xF000) ∧ decodeOp 0xF175 = .error (.invalidInstruction 0xF175) := by decide
theorem test_decode_ignored_bits : decodeOp 0x0AE0 = .ok .cls ∧ decodeOp 0x912F = .ok (.sneVxVy 1 2) := by decide
theorem test_decode_bytes : decode [0xA2, 0x02, 0x60] = .ok (.ldINnn 0x202, [0x60]) := by decide
theorem test_decode_truncated : decode [0xA2] = .error .truncated := by decide
theorem test_decode_table_word : decodeTableWord 16 0xD125 = some (.drw 1 2 5) := by decide

/-! ### One step -/

/-- No key pressed, no key answered, random byte 0. -/
def noInput : Env := { keys := 0, poll := none, rnd := 0 }

/-- A state about to execute a word at its PC with the given input record and no tick before it. -/
def ready (s : State) (op : Word) (e : Env) : State :=
  { s.placeWord op with port := { s.port with pending := [{ ticks := 0, env := e }] } }

/-- The state after a step; the state itself if there is none. -/
def after (s : State) : State :=
  match step s with
  | .next t => t
  | _ => s

theorem test_F1_ret : let t := after (ready ({ State.reset with sp := 1, stack := State.reset.stack.set 0 0x0ABC }) 0x00EE noInput)
    t.pc = 0x0ABC ∧ t.sp = 0 := by decide
theorem test_F2_ret_empty : let t := after (ready (State.reset) 0x00EE noInput)
    t.pc = 0x0202 ∧ t.halt = true ∧ t.fault = 3 ∧ t.port.report = .fatal 3 (.insn 0x0200 0x00EE) := by decide
theorem test_F3_ret_ignored_nibble : let t := after (ready ({ State.reset with sp := 2, stack := (State.reset.stack.set 0 0x0300).set 1 0x0400 }) 0x07EE noInput)
    t.pc = 0x0400 ∧ t.sp = 1 := by decide
theorem test_F5_jp_odd : let t := after (ready (State.reset) 0x1301 noInput)
    t.pc = 0x0301 ∧ t.port.report = .ok := by decide
theorem test_F8_call_last : let t := after (ready ({ State.reset with sp := 15 }) 0x2400 noInput)
    t.pc = 0x0400 ∧ t.sp = 16 ∧ t.stack[15] = 0x0202 := by decide
theorem test_F9_call_full : let t := after (ready ({ State.reset with sp := 16 }) 0x2400 noInput)
    t.pc = 0x0202 ∧ t.halt = true ∧ t.fault = 2 ∧ t.sp = 16 ∧ t.stack[15] = 0 := by decide
theorem test_F10_call_wrapped : let t := after (ready (State.reset.setPc 0xFFE) 0x2300 noInput)
    t.pc = 0x0300 ∧ t.sp = 1 ∧ t.stack[0] = 0x0000 := by decide
theorem test_F11_seKk : let t := after (ready (State.reset.setReg 0xA 0x42) 0x3A42 noInput)
    t.pc = 0x0204 := by decide
theorem test_F22_se_top : let t := after (ready (State.reset.setPc 0xFFC) 0x3000 noInput)
    t.pc = 0x1000 := by decide
theorem test_F23_se_wrapped : let t := after (ready (State.reset.setPc 0xFFE) 0x3000 noInput)
    t.pc = 0x0002 := by decide
theorem test_F13_sneKk : let t := after (ready (State.reset.setReg 0xA 0x43) 0x4A42 noInput)
    t.pc = 0x0204 := by decide
theorem test_F14_sneKk_equal : let t := after (ready (State.reset.setReg 0xA 0x42) 0x4A42 noInput)
    t.pc = 0x0202 := by decide
theorem test_F16_se_ignored_nibble : let t := after (ready ((State.reset.setReg 1 7).setReg 2 7) 0x5127 noInput)
    t.pc = 0x0204 := by decide
theorem test_F19_sne_ignored_nibble : let t := after (ready ((State.reset.setReg 1 7).setReg 2 7) 0x912F noInput)
    t.pc = 0x0202 := by decide
theorem test_F18_sne : let t := after (ready ((State.reset.setReg 1 7).setReg 2 8) 0x9120 noInput)
    t.pc = 0x0204 := by decide
theorem test_F21_jpV0_top : let t := after (ready (State.reset.setReg 0 0xFF) 0xBFFF noInput)
    t.pc = 0x10FE := by decide
theorem test_F27_odd_pc : let t := after (ready (State.reset.setPc 0x301) 0x6A55 noInput)
    t.reg 0xA = 0x55 ∧ t.pc = 0x0303 := by decide
theorem test_A1_ldKk : let t := after (ready (State.reset) 0x6AFF noInput)
    t.reg 0xA = 0xFF := by decide
theorem test_A4_addKk_saturates : let t := after (ready (State.reset.setReg 1 0x02) 0x71FF noInput)
    t.reg 1 = 0xFF ∧ t.reg 0xF = 0 := by decide
theorem test_A7_copy : let t := after (ready (((State.reset.setReg 1 1).setReg 2 0xAB).setReg 0xF 1) 0x8120 noInput)
    t.reg 1 = 0xAB ∧ t.reg 0xF = 1 := by decide
theorem test_A8_or : let t := after (ready (((State.reset.setReg 1 0xF0).setReg 2 0x0F).setReg 0xF 1) 0x8121 noInput)
    t.reg 1 = 0xFF ∧ t.reg 0xF = 1 := by decide
theorem test_A9_and : let t := after (ready (((State.reset.setReg 1 0xF3).setReg 2 0x3F).setReg 0xF 1) 0x8122 noInput)
    t.reg 1 = 0x33 ∧ t.reg 0xF = 1 := by decide
theorem test_A10_xor : let t := after (ready (((State.reset.setReg 1 0xFF).setReg 2 0x0F).setReg 0xF 1) 0x8123 noInput)
    t.reg 1 = 0xF0 ∧ t.reg 0xF = 1 := by decide
theorem test_A13_add_carry : let t := after (ready ((State.reset.setReg 1 0x64).setReg 2 0x9C) 0x8124 noInput)
    t.reg 1 = 0xFF ∧ t.reg 0xF = 1 := by decide
theorem test_A15_add_into_vf : let t := after (ready ((State.reset.setReg 0xF 0xF0).setReg 1 0x20) 0x8F14 noInput)
    t.reg 0xF = 0xFF := by decide
theorem test_A20_sub_equal : let t := after (ready (((State.reset.setReg 1 7).setReg 2 7).setReg 0xF 1) 0x8125 noInput)
    t.reg 1 = 0 ∧ t.reg 0xF = 0 := by decide
theorem test_A23_sub_into_vf : let t := after (ready ((State.reset.setReg 0xF 9).setReg 1 4) 0x8F15 noInput)
    t.reg 0xF = 5 := by decide
theorem test_A24_shr : let t := after (ready ((State.reset.setReg 1 5).setReg 2 0xFF) 0x8126 noInput)
    t.reg 1 = 2 ∧ t.reg 0xF = 1 ∧ t.reg 2 = 0xFF := by decide
theorem test_A26_shr_vf : let t := after (ready (State.reset.setReg 0xF 6) 0x8F06 noInput)
    t.reg 0xF = 3 := by decide
theorem test_A27_subn : let t := after (ready ((State.reset.setReg 1 3).setReg 2 0xA) 0x8127 noInput)
    t.reg 1 = 7 ∧ t.reg 0xF = 1 := by decide
theorem test_A29_subn_saturates : let t := after (ready (((State.reset.setReg 1 0xA).setReg 2 3).setReg 0xF 1) 0x8127 noInput)
    t.reg 1 = 0 ∧ t.reg 0xF = 0 := by decide
theorem test_A30_shl : let t := after (ready ((State.reset.setReg 1 0xC1).setReg 2 0x55) 0x812E noInput)
    t.reg 1 = 0x82 ∧ t.reg 0xF = 1 := by decide
theorem test_A32_shl_vf : let t := after (ready (State.reset.setReg 0xF 0x81) 0x8F0E noInput)
    t.reg 0xF = 2 := by decide
theorem test_A33_invalid : let t := after (ready ((State.reset.setReg 1 1).setReg 2 2) 0x8128 noInput)
    t.pc = 0x0202 ∧ t.reg 1 = 1 ∧ t.halt = false ∧ t.port.report = .invalid 0x0200 0x8128 := by decide
theorem test_M1_ldI : let t := after (ready (State.reset) 0xAFFF noInput)
    t.i = 0xFFF := by decide
theorem test_M3_addI_wraps : let t := after (ready ((State.reset.setI 0xFFF).setReg 2 2) 0xF21E noInput)
    t.i = 0x001 ∧ t.reg 0xF = 0 := by decide
theorem test_M6_glyph : let t := after (ready (State.reset.setReg 2 0xFF) 0xF229 noInput)
    t.i = 0x04B := by decide
theorem test_M8_bcd : let t := after (ready ((State.reset.setReg 3 0xFF).setI 0x300) 0xF333 noInput)
    t.mem.byte 0x300 = 2 ∧ t.mem.byte 0x301 = 5 ∧ t.mem.byte 0x302 = 5 ∧ t.i = 0x300 := by decide
theorem test_M11_bcd_fault : let t := after (ready ((State.reset.setReg 3 0x7B).setI 0xFFE) 0xF333 noInput)
    t.halt = true ∧ t.fault = 4 ∧ t.mem.byte 0xFFE = 0 ∧ t.pc = 0x0202 := by decide
theorem test_M14_store : let t := after (ready (((((State.reset.setReg 0 1).setReg 1 2).setReg 2 3).setReg 3 4).setReg 4 5 |>.setI 0x400) 0xF355 noInput)
    t.mem.byte 0x400 = 1 ∧ t.mem.byte 0x403 = 4 ∧ t.mem.byte 0x404 = 0 ∧ t.i = 0x400 := by decide
theorem test_M16_store_fault : let t := after (ready ((State.reset.setReg 0 0x10).setI 0xFF1) 0xFF55 noInput)
    t.halt = true ∧ t.fault = 4 ∧ t.mem.byte 0xFF1 = 0 := by decide
theorem test_M17_load : let t := after (ready ((State.reset.setReg 3 0x77).setI 0x400 |>.setMem (State.reset.mem.putAll 0x400 [0xDE, 0xAD, 0xBE, 0xEF])) 0xF265 noInput)
    t.reg 0 = 0xDE ∧ t.reg 1 = 0xAD ∧ t.reg 2 = 0xBE ∧ t.reg 3 = 0x77 ∧ t.i = 0x400 := by decide
theorem test_M19_load_fault : let t := after (ready (((State.reset.setI 0xFFF).setReg 0 5).setReg 1 6) 0xF165 noInput)
    t.halt = true ∧ t.fault = 4 ∧ t.reg 0 = 5 ∧ t.reg 1 = 6 := by decide
theorem test_D1_cls : let t := after (ready ((State.reset.setDisp (State.reset.disp.set 31 1)).setReg 0xF 1) 0x00E0 noInput)
    t.disp[31] = 0 ∧ t.reg 0xF = 1 := by decide
theorem test_D3_drw_wraps : let t := after (ready (((State.reset.setI 0x300).setReg 0 62).setReg 1 3 |>.setMem (State.reset.mem.put 0x300 0xF0)) 0xD011 noInput)
    t.disp[3] = 0xC000000000000003 ∧ t.reg 0xF = 0 := by decide
theorem test_D13_drw_clips : let t := after (ready (((State.reset.setI 0x300).setReg 0 0).setReg 1 30 |>.setMem (State.reset.mem.putAll 0x300 [0x80, 0x40, 0x20])) 0xD013 noInput)
    t.disp[30] = 0x8000000000000000 ∧ t.disp[31] = 0x4000000000000000 ∧ t.disp[0] = 0 := by decide
theorem test_K1_skp : let t := after (ready (State.reset.setReg 5 0x1A) 0xE59E { keys := 0x0400, poll := none, rnd := 0 })
    t.pc = 0x0204 := by decide
theorem test_K2_skp_up : let t := after (ready (State.reset.setReg 5 0x0A) 0xE59E { keys := 0xFBFF, poll := none, rnd := 0 })
    t.pc = 0x0202 := by decide
theorem test_K4_sknp : let t := after (ready (State.reset.setReg 5 0x00) 0xE5A1 { keys := 0xFFFE, poll := none, rnd := 0 })
    t.pc = 0x0204 := by decide
theorem test_K5_sknp_down : let t := after (ready (State.reset.setReg 5 0x0F) 0xE5A1 { keys := 0x8000, poll := none, rnd := 0 })
    t.pc = 0x0202 := by decide
theorem test_K7_key : let t := after (ready (State.reset.setReg 2 0x55) 0xF20A { keys := 0x80, poll := some 7, rnd := 0 })
    t.reg 2 = 7 ∧ t.pc = 0x0202 := by decide
theorem test_K8_key_retry_wrapped : let t := after (ready (State.reset.setPc 0xFFE) 0xF20A noInput)
    t.pc = 0x0FFE ∧ t.port.report = .ok := by decide
theorem test_T1_readDt : let t := after (ready (State.reset.setDt 0x1E) 0xF307 noInput)
    t.reg 3 = 0x1E ∧ t.dt = 0x1E := by decide
theorem test_T2_writeDt : let t := after (ready ((State.reset.setReg 3 0xFF).setDt 2) 0xF315 noInput)
    t.dt = 255 := by decide
theorem test_T3_writeSt : let t := after (ready (State.reset.setReg 3 5) 0xF318 noInput)
    t.st = 5 := by decide
theorem test_N1_rnd : let t := after (ready (State.reset) 0xC10F { keys := 0, poll := none, rnd := 0xB7 })
    t.reg 1 = 7 := by decide

theorem test_F25_fetch_fault : let t := after { State.reset with pc := 0x0FFF, port := { Port.reset with pending := [default] } }
    t.pc = 0x0FFF ∧ t.halt = true ∧ t.fault = 4 ∧ t.port.report = .fatal 4 (.fetch 0x0FFF) := by decide
theorem test_H1_halted : let t := after { State.reset with halt := true, fault := 2, port := { Port.reset with pending := [default] } }
    t.pc = 0x0200 ∧ t.halt = true ∧ t.fault = 2 ∧ t.port.report = .fatal 2 .latched := by decide
theorem test_tick_KT3 : let t := ((State.reset.setDt 255).setSt 2).tick
    t.dt = 254 ∧ t.st = 1 := by decide
theorem test_tick_KT1 : State.reset.tick.dt = 0 ∧ State.reset.tick.st = 0 := by decide
theorem test_schedule_ticks : (after (ready (State.reset.setDt 3) 0x6001 noInput)).dt = 3 ∧
    (after { (State.reset.setDt 3).placeWord 0x6001 with port := { Port.reset with pending := [{ ticks := 2, env := noInput }] } }).dt = 1 := by decide
theorem test_load_P1 : (match loadProgram [0xA2, 0x02, 0x60, 0x0C, 0x00, 0xE0] State.reset with
    | .next t => decide (t.mem.byte 0x200 = 0xA2 ∧ t.mem.byte 0x205 = 0xE0 ∧ t.fetch = .ok 0xA202)
    | _ => false) = true := by decide
theorem test_load_after_start : (match loadProgram [0] { State.reset with port := { Port.reset with loadOpen := false } } with
    | .refused .loadAfterStart => true
    | _ => false) = true := by decide
theorem test_font_glyph5 : (List.range 5).map (fun k => State.reset.mem.byte (0x019 + k)) = [0xF0, 0x80, 0xF0, 0x10, 0xF0] := by decide
theorem test_free_inputs_first_step : (match step (State.reset.withFetchWord 16 0xE59E) with
    | .next _ => true
    | _ => false) = true := by decide
theorem test_free_inputs_first_key : (match step (State.reset.withFetchWord 16 0xF20A) with
    | .next _ => true
    | _ => false) = true := by decide

/-! ### Witnesses: states and operands that meet the hypotheses of the obligations -/

theorem witness_CallPushesReturnAddress :
    ({ State.reset with sp := 15 }).sp.val < 16 ∧ ({ State.reset with sp := 16 }).sp.val = 16 := by decide
theorem witness_ReturnPopsIntoPc : ({ State.reset with sp := 1 }).sp.val = (0 : Fin 16).val + 1 ∧
    ({ State.reset with sp := 16 }).sp.val = (15 : Fin 16).val + 1 ∧ State.reset.sp.val = 0 := by decide
theorem witness_SkipOnImmediate : State.reset.reg 15 = 0x00 ∧ State.reset.reg 15 ≠ 0x01 := by decide
/-- The register premises of AddRegistersWithCarry, SubtractionsWithNotBorrow and ShiftsByOne. -/
theorem witness_FlagOperands : (14 : RegNo) ≠ 15 ∧ (0 : RegNo) ≠ 14 ∧ (0 : RegNo) ≠ 15 := by decide
theorem witness_StoreDecimalDigits : State.reset.mem.wf = true ∧
    (State.reset.setI 0xFFD).base + 2 < 4096 ∧ 4096 ≤ (State.reset.setI 0xFFE).base + 2 ∧
    0xFFC < (State.reset.setI 0xFFD).base := by decide
/-- The premises of StoreRegisters and LoadRegisters. -/
theorem witness_RegisterTransfers : State.reset.mem.wf = true ∧
    (State.reset.setI 0xFF0).base + (15 : RegNo).val < 4096 ∧
    4096 ≤ (State.reset.setI 0xFF1).base + (15 : RegNo).val ∧
    (State.reset.setI 0xFFF).base + (0 : RegNo).val < 4096 ∧ (15 : RegNo).val ≤ (15 : RegNo).val := by decide
theorem witness_DrawTogglesSpritePixels : (0 : Fin 16).val = 0 ∧
    (State.reset.setI 0xFFF).base + (1 : Fin 16).val - 1 < 4096 ∧
    (1 ≤ (2 : Fin 16).val ∧ 4096 ≤ (State.reset.setI 0xFFF).base + (2 : Fin 16).val - 1) ∧ 63 < 64 := by decide
/-- The column premises of RowMaskPlacesEightColumns and DrawTwiceRestoresDisplay, and the splits of R161. -/
theorem witness_RowMaskColumns : 0 < 64 ∧ 63 < 64 ∧ 56 ≤ 56 ∧ 1 ≤ 1 ∧ 7 ≤ 7 := by decide
theorem witness_KeyWaitStoresOrRetries :
    (State.reset.presentEnv { keys := 0, poll := some 15, rnd := 0 }).port.env.poll = some 15 ∧
    State.reset.port.env.poll = none := by decide
theorem witness_StepRunsDecodedInstruction : let s := (State.reset.setPc 0xFFE).placeWord 0x6001
    s.halt = false ∧ s.pc.toNat < 4095 ∧ s.pc = 0xFFE ∧ decodeOp (wordAt s) = .ok (.ldVxKk 0 1) := by decide
theorem witness_InvalidWordOnlyAdvances : let s := State.reset.placeWord 0x8128
    s.halt = false ∧ s.pc.toNat < 4095 ∧ ∀ r ∈ opcodeRows, wordAt s &&& r.mask ≠ r.pattern := by decide
theorem witness_FetchIsBigEndian : (State.reset.setPc 4094).pc.toNat < 4095 := by decide
theorem witness_FetchFaultKeepsPc : let s := State.reset.setPc 4095
    s.halt = false ∧ 4095 ≤ s.pc.toNat ∧ 4095 ≤ (State.reset.setPc 0x10FE).pc.toNat := by decide
theorem witness_HaltedMachineStaysFrozen : ({ State.reset with halt := true, fault := 2 }).halt = true := by decide
theorem witness_CallStackIsLastInFirstOut : State.reset.sp.val = 0 ∧
    ({ State.reset with sp := 16 }).sp.val = (15 : Fin 16).val + 1 ∧
    (List.replicate 16 (0x0ABC : Word)).length = 16 := by decide
theorem witness_ResetState : (State.reset.setPc 7).mem.font = Config.customaryFont ∧ 80 ≤ 4095 := by decide
theorem witness_LoadProgramStandsImage : State.reset.mem.wf = true ∧ State.reset.halt = false ∧
    State.reset.port.loadOpen = true ∧ (List.replicate 3584 (0xAB : Byte)).length ≤ 3584 ∧
    3584 < (List.replicate 3585 (0xAB : Byte)).length ∧
    ({ State.reset with port := { Port.reset with loadOpen := false } }).port.loadOpen = false :=
  ⟨rfl, rfl, rfl, by rw [List.length_replicate], by rw [List.length_replicate]; decide, rfl⟩
theorem witness_EncodeOfDecodeClearsIgnoredBits : decodeOp 0x912F = .ok (.sneVxVy 1 2) ∧
    decodeOp 0x9120 = .ok (.sneVxVy 1 2) ∧ canonicalWord 0x9120 = true := by decide
theorem witness_DecoderIsOpcodeMap : (⟨0xF000, 0x1000⟩ : OpRow) ∈ opcodeRows ∧
    (0x1ABC : Word) &&& 0xF000 = 0x1000 ∧ decodeOp 0x1ABC = .ok (.jp 0xABC) ∧
    ∀ r ∈ opcodeRows, (0x0000 : Word) &&& r.mask ≠ r.pattern := by decide
theorem witness_Inv : Safety.Inv (State.reset.placeWord 0x6001) :=
  ⟨by decide, .inl ⟨rfl, rfl⟩, by unfold Safety.PcOk; decide, by unfold Safety.StackOk; decide⟩
theorem witness_StepKeepsInvariant : (match step (State.reset.placeWord 0x6001) with
    | .next t => decide (t.reg 0 = 1)
    | _ => false) = true := by decide
theorem witness_EventsKeepInvariant : (match Event.deliver .tick (State.reset.placeWord 0x6001) with
    | .next t => decide (t.pc = 0x0200)
    | _ => false) = true := by decide

/-- The instruction answers a next state in which something has changed. -/
def changes (i : Instr) (s : State) (p : State → Bool) : Bool :=
  match exec i s with
  | .next t => p t
  | _ => false

theorem witness_OnlyNamedWriters_registers :
    changes (.ldVxKk 3 1) State.reset (fun t => t.reg 3 != State.reset.reg 3) = true ∧
    changes (.shr 3 0) (State.reset.setReg 3 1) (fun t => t.reg 15 != 0) = true ∧
    changes (.ldINnn 5) State.reset (fun t => t.i != State.reset.i) = true ∧
    changes (.jp 5) State.reset (fun t => t.pc != State.reset.pc) = true ∧
    changes (.call 5) State.reset (fun t => t.sp != State.reset.sp) = true := by decide
theorem witness_OnlyNamedWriters_others :
    changes (.ldDtVx 0) (State.reset.setReg 0 1) (fun t => t.dt != 0) = true ∧
    changes (.ldStVx 0) (State.reset.setReg 0 1) (fun t => t.st != 0) = true ∧
    changes .cls (State.reset.setDisp (State.reset.disp.set 31 1)) (fun t => t.disp[31] != 1) = true ∧
    changes (.ldMiVx 0) ((State.reset.setReg 0 1).setI 0xFFF) (fun t => t.mem != State.reset.mem) = true := by
  decide
theorem witness_FaultConditionsAndCodes :
    raises (.call 0) { State.reset with sp := 16 } = some 2 ∧ raises (.call 0) { State.reset with sp := 15 } = none ∧
    raises .ret State.reset = some 3 ∧ raises (.drw 0 0 1) (State.reset.setI 0xFFF) = none ∧
    raises (.drw 0 0 2) (State.reset.setI 0xFFF) = some 4 ∧ raises (.drw 0 0 0) (State.reset.setI 0xFFF) = none ∧
    raises (.ldBVx 0) (State.reset.setI 0xFFE) = some 4 ∧ raises (.ldMiVx 1) (State.reset.setI 0xFFF) = some 4 ∧
    raises (.ldVxMi 1) (State.reset.setI 0xFFF) = some 4 ∧ raises .cls State.reset = none := by decide
theorem witness_FatalFaultsArePrecise :
    (match stepEvent noInput (State.reset.setPc 0xFFF) with
      | .next t => t.halt
      | _ => false) = true ∧
    (match stepEvent noInput (State.reset.placeWord 0x00EE) with
      | .next t => t.halt
      | _ => false) = true ∧ State.reset.halt = false := by decide
theorem witness_InputsReachOnlyTheirInstructions :
    (∀ x, Instr.cls ≠ .skp x) ∧ (∀ x, Instr.cls ≠ .sknp x) ∧ (∀ x, Instr.cls ≠ .ldVxK x) ∧
    (∀ x kk, Instr.cls ≠ .rnd x kk) := by
  refine ⟨?_, ?_, ?_, ?_⟩ <;> intros <;> nofun
theorem witness_StoresAreSeenByFetch : State.reset.mem.wf = true ∧
    (State.reset.setI 0xFFE).base + (1 : RegNo).val < 4096 ∧ (0 : RegNo).val < (1 : RegNo).val := by decide
theorem witness_MemoryReadAfterWrite : State.reset.mem.wf = true ∧ 4095 < 4096 ∧ 4096 ≤ 4096 ∧ 4094 ≠ 4095 := by
  decide
theorem witness_JumpToSelfParks : let s := State.reset.placeWord 0x1200
    s.halt = false ∧ s.pc.toNat < 4095 ∧ wordAt s = 0x1000 ||| (s.pc &&& 0x0FFF) := by decide

end Sys2Proof.Tests
end

section
/-! PROOFS. The invariant of the machine (spec/10_state.md R16, R23; spec/41_flow.md R100; R207): one rule
per state operation, then one step of the Engine, then the reset state. -/

namespace Sys2Proof.Safety

open Sys2Proof.Machine

variable {s t : State}

/-! ### What each update does to the invariant -/

/-- The invariant reads memory, the latch, PC and the stack: an update of anything else keeps it. -/
theorem Inv.of_eq (h : Inv s) (hm : t.mem = s.mem) (hh : t.halt = s.halt) (hf : t.fault = s.fault)
    (hp : t.pc = s.pc) (hs : t.stack = s.stack) : Inv t := by
  obtain ⟨mem, latch, pc, stack⟩ := h
  exact ⟨hm ▸ mem, by simpa only [LatchOk, hh, hf] using latch, by simpa only [PcOk, hp] using pc,
    by simpa only [StackOk, hs] using stack⟩

theorem Inv.setReg (h : Inv s) (x : RegNo) (b : Byte) : Inv (s.setReg x b) :=
  h.of_eq rfl rfl rfl rfl rfl

theorem Inv.setFlagAndReg (h : Inv s) (g : Byte) (x : RegNo) (b : Byte) : Inv (s.setFlagAndReg g x b) :=
  (h.setReg vf g).setReg x b

theorem Inv.loadRegsUpTo (h : Inv s) (x : RegNo) (bs : List Byte) : Inv (s.loadRegsUpTo x bs) :=
  h.of_eq (s.loadRegsUpTo_mem x bs) (s.loadRegsUpTo_halt x bs) (s.loadRegsUpTo_fault x bs)
    (s.loadRegsUpTo_pc x bs) (s.loadRegsUpTo_stack x bs)

theorem Inv.setI (h : Inv s) (a : Addr) : Inv (s.setI a) := h.of_eq rfl rfl rfl rfl rfl

theorem Inv.setDt (h : Inv s) (b : Byte) : Inv (s.setDt b) := h.of_eq rfl rfl rfl rfl rfl

theorem Inv.setSt (h : Inv s) (b : Byte) : Inv (s.setSt b) := h.of_eq rfl rfl rfl rfl rfl

theorem Inv.setDisp (h : Inv s) (d : Vector PixelRow 32) : Inv (s.setDisp d) :=
  h.of_eq rfl rfl rfl rfl rfl

theorem Inv.drawAt (h : Inv s) (x y : Nat) (bs : List Byte) : Inv (s.drawAt x y bs) :=
  (h.setDisp _).setReg vf _

theorem Inv.setReport (h : Inv s) (r : Report) : Inv (s.setReport r) := h.of_eq rfl rfl rfl rfl rfl

theorem Inv.beginStep (h : Inv s) : Inv s.beginStep := h.of_eq rfl rfl rfl rfl rfl

theorem Inv.holdOp (h : Inv s) (op : Word) : Inv (s.holdOp op) := h.of_eq rfl rfl rfl rfl rfl

theorem Inv.presentEnv (h : Inv s) (e : Env) : Inv (s.presentEnv e) := h.of_eq rfl rfl rfl rfl rfl

theorem Inv.ticks (h : Inv s) (n : Nat) : Inv (s.ticks n) := h.of_eq rfl rfl rfl rfl rfl

theorem Inv.consume (h : Inv s) : Inv s.consume := h.of_eq rfl rfl rfl rfl rfl

theorem Inv.arrive (h : Inv s) : Inv s.arrive := (h.consume.ticks _).presentEnv _

theorem Inv.setMem (h : Inv s) {m : Memory} (hm : m.wf = true) : Inv (s.setMem m) :=
  ⟨hm, h.latch, h.pc, h.stack⟩

theorem Inv.setPc (h : Inv s) {a : Word} (ha : a.toNat ≤ 0x10FE) : Inv (s.setPc a) :=
  ⟨h.mem, h.latch, ha, h.stack⟩

/-- The advance leaves PC below 4096 (R84). -/
theorem Inv.advance (h : Inv s) : Inv s.advance :=
  h.setPc (by have := advancePc_lt s.pc; omega)

/-! ### Taking a fault -/

/-- Every fault but an invalid instruction latches a code from 2 to 5 (R201, R207). -/
theorem code_fatal {f : Fault} (hf : f ≠ .invalidInstruction) : 2 ≤ f.code.toNat ∧ f.code.toNat ≤ 5 := by
  cases f with
  | invalidInstruction => exact absurd rfl hf
  | stackOverflow | stackUnderflow | addressOutOfRange | programTooLarge => decide

theorem Inv.raise (h : Inv s) {f : Fault} (hf : f ≠ .invalidInstruction) (j : FaultInfo) :
    Inv (s.raise f j) :=
  ⟨h.mem, .inr ⟨rfl, code_fatal hf⟩, h.pc, h.stack⟩

theorem Inv.raiseInsn (h : Inv s) {f : Fault} (hf : f ≠ .invalidInstruction) : Inv (s.raiseInsn f) :=
  h.raise hf _

/-! ### The call stack -/

/-- A successful push of a return address keeps every entry at most 0x0FFF (R100). -/
theorem Inv.push (h : Inv s) {a : Word} (ha : a.toNat ≤ 0x0FFF) (hp : s.push a = .ok t) : Inv t := by
  obtain ⟨hsp, he⟩ | ⟨_, he⟩ := s.push_cases a
  · cases he.symm.trans hp
    refine ⟨h.mem, h.latch, h.pc, fun k => ?_⟩
    by_cases hk : s.sp.val = k.val
    · simpa [hk] using ha
    · simpa [hk] using h.stack k
  · cases he.symm.trans hp

theorem Inv.pop (h : Inv s) {a : Word} (hp : s.pop = .ok (a, t)) : a.toNat ≤ 0x0FFF ∧ Inv t := by
  obtain ⟨_, he⟩ | ⟨_, he⟩ := s.pop_cases
  · cases he.symm.trans hp
    exact ⟨h.stack ⟨s.sp.val - 1, by omega⟩, h.mem, h.latch, h.pc, h.stack⟩
  · cases he.symm.trans hp

/-! ### The faults an operation can answer are fatal -/

theorem push_error_fatal {a : Word} {f : Fault} (hp : s.push a = .error f) : f ≠ .invalidInstruction := by
  obtain ⟨_, he⟩ | ⟨_, he⟩ := s.push_cases a
  · cases he.symm.trans hp
  · cases he.symm.trans hp; decide

theorem pop_error_fatal {f : Fault} (hp : s.pop = .error f) : f ≠ .invalidInstruction := by
  obtain ⟨_, he⟩ | ⟨_, he⟩ := s.pop_cases
  · cases he.symm.trans hp
  · cases he.symm.trans hp; decide

theorem readRange_error_fatal {m : Memory} {a n : Nat} {f : Fault} (hr : m.readRange a n = .error f) :
    f ≠ .invalidInstruction := by
  unfold Memory.readRange at hr
  split at hr
  · cases hr
  · cases hr; decide

/-! ### One instruction -/

/-- What holds of the state an instruction is given (R81 phase 4, R86): the invariant, a PC that the advance
left below 4096, and the fetch address that FX0A goes back to in the range of PC. -/
structure Advanced (s : State) : Prop where
  inv      : Inv s
  pc       : s.pc.toNat ≤ 0x0FFF
  insnAddr : s.port.insnAddr.toNat ≤ 0x10FE

/-- The Engine gives every instruction such a state. -/
theorem Inv.advanced (h : Inv s) (op : Word) : Advanced (s.beginStep.holdOp op).advance :=
  ⟨(h.beginStep.holdOp op).advance, Nat.le_of_lt_succ (advancePc_lt s.pc), h.pc⟩

theorem inv_of_next (ht : Host.Outcome.next (φ := Fault) (ρ := Refusal) s = .next t) (h : Inv s) : Inv t := by
  cases ht; exact h

/-- A skip from an advanced PC ends at 4097 at most, not wrapped (R91). -/
theorem Advanced.skipIf (h : Advanced s) (c : Bool) : Inv (s.skipIf c) := by
  have hpc := h.pc
  cases c with
  | false => exact h.inv
  | true => exact h.inv.setPc (by rw [BitVec.toNat_add]; simp; omega)

theorem zextAddr_toNat_le (a : Addr) : (zextAddr a).toNat ≤ 0x0FFF := by
  have := a.isLt
  simp only [zextAddr, BitVec.toNat_setWidth]
  omega

/-- BNNN reaches 0xFFF + 0xFF = 0x10FE at most: the bound of R16. -/
theorem zextAddr_add_zextByte_toNat_le (a : Addr) (b : Byte) :
    (zextAddr a + zextByte b).toNat ≤ 0x10FE := by
  have := zextAddr_toNat_le a
  have := b.isLt
  simp only [zextByte, BitVec.toNat_add, BitVec.toNat_setWidth]
  omega

theorem Inv.execRet (h : Inv s) (ht : execRet s = .next t) : Inv t := by
  cases hp : s.pop with
  | ok r =>
    obtain ⟨ha, hi⟩ := h.pop hp
    rw [Machine.execRet, hp] at ht
    exact inv_of_next ht (hi.setPc (by omega))
  | error f =>
    rw [Machine.execRet, hp] at ht
    exact inv_of_next ht (h.raiseInsn (pop_error_fatal hp))

theorem Advanced.execCall (h : Advanced s) {nnn : Addr} (ht : execCall nnn s = .next t) : Inv t := by
  cases hp : s.push s.pc with
  | ok u =>
    have := zextAddr_toNat_le nnn
    rw [Machine.execCall, hp] at ht
    exact inv_of_next ht ((h.inv.push h.pc hp).setPc (by omega))
  | error f =>
    rw [Machine.execCall, hp] at ht
    exact inv_of_next ht (h.inv.raiseInsn (push_error_fatal hp))

theorem Inv.storeAtI (h : Inv s) {bs : List Byte} (ht : s.storeAtI bs = .next t) : Inv t := by
  rw [State.storeAtI_eq] at ht
  split at ht
  next hb => exact inv_of_next ht (h.setMem (Memory.wf_putAll h.mem bs hb))
  next => exact inv_of_next ht (h.raiseInsn (by decide))

theorem Inv.execDrw (h : Inv s) {x y : RegNo} {n : Fin 16} (ht : execDrw x y n s = .next t) : Inv t := by
  cases hr : s.mem.readRange s.base n.val with
  | ok bs =>
    rw [Machine.execDrw, hr] at ht
    exact inv_of_next ht (h.drawAt _ _ bs)
  | error f =>
    rw [Machine.execDrw, hr] at ht
    exact inv_of_next ht (h.raiseInsn (readRange_error_fatal hr))

theorem Inv.execLdVxMi (h : Inv s) {x : RegNo} (ht : execLdVxMi x s = .next t) : Inv t := by
  cases hr : s.mem.readRange s.base (x.val + 1) with
  | ok bs =>
    rw [Machine.execLdVxMi, hr] at ht
    exact inv_of_next ht (h.loadRegsUpTo x bs)
  | error f =>
    rw [Machine.execLdVxMi, hr] at ht
    exact inv_of_next ht (h.raiseInsn (readRange_error_fatal hr))

/-- FX0A stores the key or sets PC back to the fetch address (R186). -/
theorem Advanced.execLdVxK (h : Advanced s) {x : RegNo} (ht : execLdVxK x s = .next t) : Inv t := by
  cases hk : s.port.env.poll with
  | some k =>
    rw [Machine.execLdVxK, hk] at ht
    exact inv_of_next ht (h.inv.setReg x _)
  | none =>
    rw [Machine.execLdVxK, hk] at ht
    exact inv_of_next ht (h.inv.setPc h.insnAddr)

/-- Every instruction keeps the invariant when executed on an advanced state. -/
theorem Advanced.exec {i : Instr} (h : Advanced s) (ht : exec i s = .next t) : Inv t := by
  cases i with
  | ldVxKk | addVxKk | ldVxVy | orVxVy | andVxVy | xorVxVy | rnd | ldVxDt =>
    exact inv_of_next ht (h.inv.setReg _ _)
  | addVxVy | sub | shr | subn | shl => exact inv_of_next ht (h.inv.setFlagAndReg _ _ _)
  | seVxKk | sneVxKk | seVxVy | sneVxVy | skp | sknp => exact inv_of_next ht (h.skipIf _)
  | ldINnn | addIVx | ldFVx => exact inv_of_next ht (h.inv.setI _)
  | ldDtVx => exact inv_of_next ht (h.inv.setDt _)
  | ldStVx => exact inv_of_next ht (h.inv.setSt _)
  | cls => exact inv_of_next ht (h.inv.setDisp _)
  | jp nnn => exact inv_of_next ht (h.inv.setPc ((zextAddr_toNat_le nnn).trans (by decide)))
  | jpV0 nnn => exact inv_of_next ht (h.inv.setPc (zextAddr_add_zextByte_toNat_le nnn _))
  | call => exact h.execCall ht
  | ret => exact h.inv.execRet ht
  | drw => exact h.inv.execDrw ht
  | ldVxK => exact h.execLdVxK ht
  | ldBVx | ldMiVx => exact h.inv.storeAtI ht
  | ldVxMi => exact h.inv.execLdVxMi ht

/-! ### One step of the Engine -/

/-- Each of the four things a step can do keeps the invariant (R81). -/
theorem Inv.engineStep (h : Inv s) (ht : engineStep s = .next t) : Inv t := by
  obtain ⟨_, he⟩ | ⟨_, _, he⟩ | ⟨op, e, _, _, _, he⟩ | ⟨op, i, _, _, _, he⟩ := engineStep_cases s
  all_goals rw [he] at ht
  · exact inv_of_next ht (h.setReport _)
  · exact inv_of_next ht (h.beginStep.raise (by decide) _)
  · exact inv_of_next ht ((h.beginStep.holdOp op).advance.setReport _)
  · exact (h.advanced op).exec ht

/-- Settles O44: the surroundings keep the invariant, then the Engine's step does. -/
theorem stepKeepsInvariant : Obligations.StepKeepsInvariant :=
  fun _ _ h ht => h.arrive.engineStep ht

/-- Settles O43: reset lists no memory, latches nothing, and every stack entry is zero. -/
theorem resetMeetsInvariant : Obligations.ResetMeetsInvariant := fun font =>
  { mem := Memory.wf_powerOn font
    latch := .inl ⟨rfl, rfl⟩
    pc := by simp [PcOk, State.powerOn]
    stack := fun k => by simp [State.powerOn] }

end Sys2Proof.Safety
end

section
/-! PROOFS. The call stack as a list (spec/10_state.md R17, R18): the entries in use, oldest first. A push
appends to it and a pop takes its last entry, so what the array keeps above SP plays no part. -/

namespace Sys2Proof.Machine

open Sys2Proof.Claims

/-- The entries in use, in the order they were pushed. -/
def State.callStack (s : State) : List Word := s.stack.toList.take s.sp.val

theorem State.callStack_length (s : State) : s.callStack.length = s.sp.val := by
  have := s.sp.isLt
  simp only [State.callStack, List.length_take, Vector.length_toList]
  omega

/-- With `k + 1` entries in use, entry `k` is the newest. -/
theorem State.callStack_of_sp_succ {s : State} (k : Fin 16) (h : s.sp.val = k.val + 1) :
    s.callStack = s.stack.toList.take k.val ++ [s.stack[k.val]] := by
  rw [State.callStack, h, ← List.take_append_getElem (by simp), Vector.getElem_toList]

theorem State.push_callStack {s : State} (h : s.sp.val < 16) (a : Word) :
    ∃ t, s.push a = .ok t ∧ t.callStack = s.callStack ++ [a] := by
  obtain ⟨_, he⟩ | ⟨hsp, _⟩ := s.push_cases a
  · refine ⟨_, he, ?_⟩
    rw [State.callStack_of_sp_succ ⟨s.sp.val, h⟩ rfl]
    simp [State.callStack, Vector.toList_set, List.take_set_of_le]
  · omega

theorem State.pop_of_sp_succ {s : State} (k : Fin 16) (h : s.sp.val = k.val + 1) :
    s.pop = .ok (s.stack[k.val], { s with sp := k.castSucc }) := by
  obtain ⟨hsp, he⟩ | ⟨_, _⟩ := s.pop_cases
  · simp [he, h, Fin.ext_iff]
  · omega

theorem State.pop_callStack {s : State} {l : List Word} {a : Word} (h : s.callStack = l ++ [a]) :
    ∃ t, s.pop = .ok (a, t) ∧ t.callStack = l := by
  have hl : s.sp.val = l.length + 1 := by simpa [h] using s.callStack_length.symm
  obtain ⟨k, hk⟩ : ∃ k : Fin 16, s.sp.val = k.val + 1 := ⟨⟨l.length, by omega⟩, hl⟩
  obtain ⟨hrest, htop⟩ := List.append_inj' (h.symm.trans (State.callStack_of_sp_succ k hk)) rfl
  cases htop
  exact ⟨_, State.pop_of_sp_succ k hk, hrest.symm⟩

/-- Pushes append in order while there is room. -/
theorem pushAll_callStack {as : List Word} {s : State} (h : s.sp.val + as.length ≤ 16) :
    ∃ t, pushAll as s = .ok t ∧ t.callStack = s.callStack ++ as := by
  induction as generalizing s with
  | nil => exact ⟨s, rfl, by simp⟩
  | cons a as ih =>
    simp only [List.length_cons] at h
    obtain ⟨t, ht, hs⟩ := State.push_callStack (s := s) (by omega) a
    have hsp : t.sp.val = s.sp.val + 1 := by
      simpa [State.callStack_length] using congrArg List.length hs
    obtain ⟨u, hu, hus⟩ := ih (s := t) (by omega)
    exact ⟨u, by simp only [pushAll, ht, hu], by simp [hus, hs]⟩

/-- Popping every entry in use returns them newest first. -/
theorem popAll_callStack {l : List Word} {s : State} (h : s.callStack = l.reverse) :
    ∃ u, popAll l.length s = .ok (l, u) ∧ u.callStack = [] := by
  induction l generalizing s with
  | nil => exact ⟨s, rfl, h⟩
  | cons a l ih =>
    obtain ⟨t, ht, hs⟩ := State.pop_callStack (h.trans List.reverse_cons)
    obtain ⟨u, hu, hus⟩ := ih hs
    exact ⟨u, by simp only [List.length_cons, popAll, ht, hu], hus⟩

theorem State.push_full {s : State} (h : s.sp.val = 16) (a : Word) : s.push a = .error .stackOverflow := by
  obtain ⟨_, _⟩ | ⟨_, he⟩ := s.push_cases a
  · omega
  · exact he

theorem State.pop_empty {s : State} (h : s.sp.val = 0) : s.pop = .error .stackUnderflow := by
  obtain ⟨_, _⟩ | ⟨_, he⟩ := s.pop_cases
  · omega
  · exact he

/-- Settles O35, through the entries in use as a list. -/
theorem callStackIsLastInFirstOut : Obligations.CallStackIsLastInFirstOut := by
  refine ⟨fun s h => State.pop_empty h, fun s k h => ⟨_, State.pop_of_sp_succ k h, rfl, rfl⟩, ?_⟩
  intro s as hs has
  have hempty : s.callStack = [] := List.eq_nil_of_length_eq_zero (s.callStack_length.trans hs)
  obtain ⟨t, ht, hts⟩ := pushAll_callStack (s := s) (as := as) (by omega)
  rw [hempty, List.nil_append] at hts
  have htsp : t.sp.val = 16 := by rw [← t.callStack_length, hts, has]
  obtain ⟨u, hu, hus⟩ := popAll_callStack (hts.trans as.reverse_reverse.symm)
  have husp : u.sp.val = 0 := by rw [← u.callStack_length, hus, List.length_nil]
  rw [List.length_reverse, has] at hu
  exact ⟨t, u, ht, htsp, State.push_full htsp, hu, husp, State.pop_empty husp⟩

end Sys2Proof.Machine
end

section
/-! PROOFS. The reset state (spec/10_state.md R26, spec/70_reset_and_hazards.md R230). -/

namespace Sys2Proof.Machine

theorem Memory.unlisted_of_lt (font : Font) (k : Fin 80) : Memory.unlisted font k.val = font[k.val] :=
  dif_pos k.isLt

theorem Memory.unlisted_of_le (font : Font) {a : Nat} (h : 80 ≤ a) : Memory.unlisted font a = 0 :=
  dif_neg (by omega)

/-- Reset memory lists nothing, so every address reads as its background. -/
@[simp] theorem State.powerOn_byte (font : Font) (a : Nat) :
    (State.powerOn font).mem.byte a = Memory.unlisted font a := rfl

@[simp] theorem State.powerOn_reg (font : Font) (r : RegNo) : (State.powerOn font).reg r = 0 := by
  simp [State.reg, State.powerOn]

@[simp] theorem State.powerOn_stack (font : Font) (k : Fin 16) : (State.powerOn font).stack[k.val] = 0 := by
  simp [State.powerOn]

@[simp] theorem State.powerOn_disp (font : Font) (r : Fin 32) : (State.powerOn font).disp[r.val] = 0 := by
  simp [State.powerOn]

/-- Settles O36, field by field; the reset event is the reset state with the machine's own port. -/
theorem resetState : Obligations.ResetState := fun font =>
  ⟨State.powerOn_reg font, rfl, rfl, rfl, State.powerOn_stack font, rfl, rfl, State.powerOn_disp font,
    rfl, rfl, Memory.unlisted_of_lt font, fun _ => Memory.unlisted_of_le font,
    fun u hu => ⟨u.resetEvent, rfl, by rw [State.resetEvent, hu]⟩⟩

end Sys2Proof.Machine
end

section
/-! PROOFS. Memory and fetch (spec/20_memory.md R42, R43, R45, R46, R49, R53): the checked read and write, the
two bytes of a fetched word, and the registers stored by FX55 as the bytes a fetch reads. -/

namespace Sys2Proof.Machine

/-! ### The checked write -/

theorem Memory.write_eq (m : Memory) (a : Nat) (b : Byte) :
    m.write a b = if a < 4096 then .ok (m.put a b) else .error .addressOutOfRange := rfl

theorem Memory.read_put_same {m : Memory} (h : m.wf = true) {a : Nat} (ha : a < 4096) (b : Byte) :
    (m.put a b).read a = .ok b := by
  rw [Memory.read_eq, if_pos ha, Memory.byte_put h, if_pos rfl]

theorem Memory.read_put_of_ne {m : Memory} (h : m.wf = true) {a k : Nat} (hk : k ≠ a) (b : Byte) :
    (m.put a b).read k = m.read k := by
  rw [Memory.read_eq, Memory.read_eq, Memory.byte_put h, if_neg hk]

/-- Settles O52: below 4096 the write is `put`, at 4096 and above both checks fail. -/
theorem memoryReadAfterWrite : Obligations.MemoryReadAfterWrite := by
  refine fun m a b hm => ⟨fun ha => ⟨m.put a b, ?_, ?_, ?_, ?_⟩, fun ha => ⟨?_, ?_⟩⟩
  · rw [Memory.write_eq, if_pos ha]
  · exact Memory.wf_put hm ha b
  · exact Memory.read_put_same hm ha b
  · exact fun k hk => Memory.read_put_of_ne hm hk b
  · rw [Memory.write_eq, if_neg ha.not_gt]
  · rw [Memory.read_eq, if_neg ha.not_gt]

/-! ### The bytes of a fetched word -/

@[simp] theorem hiByte_joinBytes (hi lo : Byte) : hiByte (joinBytes hi lo) = hi :=
  (BitVec.extractLsb'_append_eq_of_le (Nat.le_refl 8)).trans BitVec.extractLsb'_eq_self

@[simp] theorem loByte_joinBytes (hi lo : Byte) : loByte (joinBytes hi lo) = lo :=
  (BitVec.extractLsb'_append_eq_of_add_le (Nat.le_refl 8)).trans BitVec.extractLsb'_eq_self

theorem State.fetch_of_lt {s : State} (h : s.pc.toNat < 4095) :
    s.fetch = .ok (joinBytes (s.mem.byte s.pc.toNat) (s.mem.byte (s.pc.toNat + 1))) := by
  rw [State.fetch_eq, if_pos h]

/-- Settles O32: the fetched word is the join of the two bytes, and its halves are those bytes. -/
theorem fetchIsBigEndian : Obligations.FetchIsBigEndian :=
  fun _ h => ⟨_, State.fetch_of_lt h, hiByte_joinBytes _ _, loByte_joinBytes _ _⟩

/-! ### Registers stored by FX55 -/

theorem exec_ldMiVx_of_lt {s : State} {x : RegNo} (h : s.base + x.val < 4096) :
    exec (.ldMiVx x) s = .next (s.setMem (s.mem.putAll s.base (s.regsUpTo x))) := by
  have hfit : s.base + (s.regsUpTo x).length ≤ 4096 := by rw [State.regsUpTo_length]; omega
  exact (s.storeAtI_eq _).trans (if_pos hfit)

/-- The byte of memory that FX55 stores `V[r]` in (R144). -/
theorem byte_putAll_regsUpTo {s : State} {x r : RegNo} (hm : s.mem.wf = true)
    (h : s.base + x.val < 4096) (hr : r.val ≤ x.val) :
    (s.mem.putAll s.base (s.regsUpTo x)).byte (s.base + r.val) = s.reg r := by
  have hlen := s.regsUpTo_length x
  rw [Memory.byte_putAll hm _ (by omega), if_pos (by omega), Nat.add_sub_cancel_left,
    State.regsUpTo_getD s x r hr]

/-- Settles O51: the fetch after the store reads the two stored bytes, the lower address first. -/
theorem storesAreSeenByFetch : Obligations.StoresAreSeenByFetch := by
  intro x k s hm hx hk
  refine ⟨_, exec_ldMiVx_of_lt hx, ?_⟩
  have hpc : (BitVec.ofNat 16 (s.base + k.val)).toNat = s.base + k.val :=
    Nat.mod_eq_of_lt (by omega)
  have hhi := byte_putAll_regsUpTo (r := k) hm hx hk.le
  have hlo := byte_putAll_regsUpTo (r := ⟨k.val + 1, by omega⟩) hm hx hk
  rw [State.fetch_of_lt (by rw [hpc]; omega)]
  simp only [hpc, State.setMem_mem, hhi, Nat.add_assoc, hlo, joinBytes]

end Sys2Proof.Machine
end

section
/-! PROOFS. The decoder, the encoder and the opcode map (spec/30_encoding.md R61, R62, R65, R66, R67, R70). The
map's rows and the words R66 lists as invalid cover every word, and the decoder has one rule for each: so what it
answers is known from where the word stands, and every obligation below reads it there. -/

namespace Sys2Proof

open Sys2Proof.Claims Sys2Proof.Laws.CanonicalEncoding

/-! ### A word is its fields (R61, R62) -/

theorem formatA_fields (op : Word) : formatA (opFamily op) (opNNN op) = op := by
  unfold formatA opFamily opNNN
  rw [BitVec.extractLsb'_append_extractLsb'_eq_extractLsb' (by decide)]
  exact BitVec.extractLsb'_eq_self

theorem formatXK_fields (op : Word) : formatXK (opFamily op) (opX op) (opKK op) = op := by
  unfold formatXK opFamily opX opKK
  simp only [BitVec.ofFin_toFin]
  rw [BitVec.extractLsb'_append_extractLsb'_eq_extractLsb' (by decide),
    BitVec.extractLsb'_append_extractLsb'_eq_extractLsb' (by decide)]
  exact BitVec.extractLsb'_eq_self

theorem formatXYN_fields (op : Word) : formatXYN (opFamily op) (opX op) (opY op) (opN op) = op := by
  unfold formatXYN opFamily opX opY opN
  simp only [BitVec.ofFin_toFin]
  rw [BitVec.extractLsb'_append_extractLsb'_eq_extractLsb' (by decide),
    BitVec.extractLsb'_append_extractLsb'_eq_extractLsb' (by decide),
    BitVec.extractLsb'_append_extractLsb'_eq_extractLsb' (by decide)]
  exact BitVec.extractLsb'_eq_self

/-! ### What each of the three masks of R65 fixes -/

theorem masked_iff {op : Word} {f : BitVec 4} : op &&& 0xF000 = formatA f 0 ↔ opFamily op = f := by
  constructor
  · intro h
    exact (opFamily_of_mask h).trans (opFamily_formatA f 0)
  · rintro rfl
    rw [← formatA_masked _ (opNNN op), formatA_fields]

theorem masked8_iff {op : Word} {f : BitVec 4} {n : Fin 16} :
    op &&& 0xF00F = formatXYN f 0 0 n ↔ opFamily op = f ∧ opN op = n := by
  constructor
  · intro h
    exact ⟨(opFamily_of_mask8 h).trans (opFamily_formatXYN f 0 0 n),
      congrArg BitVec.toFin ((opNibble_of_mask8 h).trans (opNibble_formatXYN f 0 0 n))⟩
  · rintro ⟨rfl, rfl⟩
    rw [← formatXYN_masked_op _ (opX op) (opY op), formatXYN_fields]

theorem maskedSub_iff {op : Word} {f : BitVec 4} {kk : Byte} :
    op &&& 0xF0FF = formatXK f 0 kk ↔ opFamily op = f ∧ opKK op = kk := by
  constructor
  · intro h
    exact ⟨(opFamily_of_maskSub h).trans (opFamily_formatXK f 0 kk),
      (opKK_of_maskSub h).trans (opKK_formatXK f 0 kk)⟩
  · rintro ⟨rfl, rfl⟩
    rw [← formatXK_masked_sub _ (opX op), formatXK_fields]

/-! ### The instruction that a word spells on a row -/

/-- The instruction on the row of `i` whose operands are the fields of `op` (R61, R62). -/
def Instr.atWord (i : Instr) (op : Word) : Instr :=
  match i with
  | .cls => .cls
  | .ret => .ret
  | .jp _ => .jp (opNNN op)
  | .call _ => .call (opNNN op)
  | .seVxKk _ _ => .seVxKk (opX op) (opKK op)
  | .sneVxKk _ _ => .sneVxKk (opX op) (opKK op)
  | .seVxVy _ _ => .seVxVy (opX op) (opY op)
  | .ldVxKk _ _ => .ldVxKk (opX op) (opKK op)
  | .addVxKk _ _ => .addVxKk (opX op) (opKK op)
  | .ldVxVy _ _ => .ldVxVy (opX op) (opY op)
  | .orVxVy _ _ => .orVxVy (opX op) (opY op)
  | .andVxVy _ _ => .andVxVy (opX op) (opY op)
  | .xorVxVy _ _ => .xorVxVy (opX op) (opY op)
  | .addVxVy _ _ => .addVxVy (opX op) (opY op)
  | .sub _ _ => .sub (opX op) (opY op)
  | .shr _ _ => .shr (opX op) (opY op)
  | .subn _ _ => .subn (opX op) (opY op)
  | .shl _ _ => .shl (opX op) (opY op)
  | .sneVxVy _ _ => .sneVxVy (opX op) (opY op)
  | .ldINnn _ => .ldINnn (opNNN op)
  | .jpV0 _ => .jpV0 (opNNN op)
  | .rnd _ _ => .rnd (opX op) (opKK op)
  | .drw _ _ _ => .drw (opX op) (opY op) (opN op)
  | .skp _ => .skp (opX op)
  | .sknp _ => .sknp (opX op)
  | .ldVxDt _ => .ldVxDt (opX op)
  | .ldVxK _ => .ldVxK (opX op)
  | .ldDtVx _ => .ldDtVx (opX op)
  | .ldStVx _ => .ldStVx (opX op)
  | .addIVx _ => .addIVx (opX op)
  | .ldFVx _ => .ldFVx (opX op)
  | .ldBVx _ => .ldBVx (opX op)
  | .ldMiVx _ => .ldMiVx (opX op)
  | .ldVxMi _ => .ldVxMi (opX op)

/-- The word stands on the row of `i`, and its fields are the operands of `i`. -/
def Spells (op : Word) (i : Instr) : Prop := op &&& i.row.mask = i.row.pattern ∧ i.atWord op = i

@[simp] theorem row_atWord (i : Instr) (op : Word) : (i.atWord op).row = i.row := by
  cases i <;> rfl

@[simp] theorem atWord_atWord (i : Instr) (op : Word) : (i.atWord op).atWord op = i.atWord op := by
  cases i <;> rfl

theorem spells_atWord {op : Word} {i : Instr} (h : op &&& i.row.mask = i.row.pattern) :
    Spells op (i.atWord op) :=
  ⟨by rwa [row_atWord], atWord_atWord i op⟩

/-- The operands are read back out of the encoder's word (R70). -/
theorem atWord_encode (i : Instr) : i.atWord (encode i) = i := by
  cases i <;> simp [Instr.atWord, encode]

/-- The encoder's word stands on the instruction's row, format by format. -/
theorem encode_masked (i : Instr) : encode i &&& i.row.mask = i.row.pattern := by
  cases i with
  | cls | ret => rfl
  | jp | call | ldINnn | jpV0 => exact formatA_masked _ _
  | seVxKk | sneVxKk | ldVxKk | addVxKk | rnd => exact formatXK_masked _ _ _
  | seVxVy | sneVxVy | drw => exact formatXYN_masked _ _ _ _
  | ldVxVy | orVxVy | andVxVy | xorVxVy | addVxVy | sub | shr | subn | shl =>
    exact formatXYN_masked_op _ _ _ _
  | skp | sknp | ldVxDt | ldVxK | ldDtVx | ldStVx | addIVx | ldFVx | ldBVx | ldMiVx | ldVxMi =>
    exact formatXK_masked_sub _ _ _

theorem spells_encode (i : Instr) : Spells (encode i) i := ⟨encode_masked i, atWord_encode i⟩

/-! ### The decoder on a row (R64, R65) -/

/-- The decoder's rule for a row: every word of the row is the row's instruction, with the word's fields as its
operands, whatever its ignored bits. -/
theorem decodeOp_of_row (i : Instr) : RowMeans i.row.mask i.row.pattern i.atWord := by
  intro op h
  cases i with
  | jp | call | seVxKk | sneVxKk | seVxVy | ldVxKk | addVxKk | sneVxVy | ldINnn | jpV0 | rnd | drw =>
    simp [decodeOp, opFamily_of_mask h, Instr.row, Instr.atWord]
  | ldVxVy | orVxVy | andVxVy | xorVxVy | addVxVy | sub | shr | subn | shl =>
    simp [decodeOp, decodeFamily8, opFamily_of_mask8 h, opNibble_of_mask8 h, Instr.row, Instr.atWord]
  | cls | ret =>
    simp [decodeOp, decodeFamily0, opFamily_of_maskSub h, opKK_of_maskSub h, Instr.row, Instr.atWord]
  | skp | sknp =>
    simp [decodeOp, decodeFamilyE, opFamily_of_maskSub h, opKK_of_maskSub h, Instr.row, Instr.atWord]
  | ldVxDt | ldVxK | ldDtVx | ldStVx | addIVx | ldFVx | ldBVx | ldMiVx | ldVxMi =>
    simp [decodeOp, decodeFamilyF, opFamily_of_maskSub h, opKK_of_maskSub h, Instr.row, Instr.atWord]

theorem decodeOp_of_spells {op : Word} {i : Instr} (h : Spells op i) : decodeOp op = .ok i := by
  obtain ⟨hrow, hi⟩ := h
  rw [decodeOp_of_row i op hrow, hi]

/-- Settles O38: the encoder's word spells the instruction. -/
theorem decodeOfEncodeIsIdentity : Obligations.DecodeOfEncodeIsIdentity := fun i =>
  have h : decodeOp (encode i) = .ok i := decodeOp_of_spells (spells_encode i)
  ⟨h, fun rest => decode_bytes (encode i) rest h⟩

/-- Settles O42: each word stands on its instruction's row. -/
theorem sampleWordsDecode : Obligations.SampleWordsDecode :=
  ⟨decodeOp_of_row .ret 0x07EE rfl, decodeOp_of_row (.jp 0) 0x1ABC rfl,
    decodeOp_of_row (.sneVxVy 0 0) 0x912F rfl, decodeOp_of_row (.addVxVy 0 0) 0x8F14 rfl,
    decodeOp_of_row (.ldINnn 0) 0xA202 rfl, decodeOp_of_row (.drw 0 0 0) 0xD345 rfl,
    decodeOp_of_row (.skp 0) 0xE59E rfl, decodeOp_of_row (.ldVxMi 0) 0xF265 rfl⟩

/-! ### The rows of the map and the invalid words cover every word (R66) -/

/-- The words that R66 lists as invalid, family by family. -/
def InvalidByFamily (op : Word) : Prop :=
  (opFamily op = 0x0 ∧ opKK op ∉ [0xE0, 0xEE]) ∨
  (opFamily op = 0x8 ∧ (opN op).val ∈ [8, 9, 10, 11, 12, 13, 15]) ∨
  (opFamily op = 0xE ∧ opKK op ∉ [0x9E, 0xA1]) ∨
  (opFamily op = 0xF ∧ opKK op ∉ [0x07, 0x0A, 0x15, 0x18, 0x1E, 0x29, 0x33, 0x55, 0x65])

/-- A family without a second decode level has the one row of its nibble. -/
theorem family_row_mem : ∀ f : BitVec 4, f ∉ [0x0, 0x8, 0xE, 0xF] →
    (⟨0xF000, formatA f 0⟩ : OpRow) ∈ opcodeRows := by decide

theorem family0_row_mem : ∀ kk ∈ [0xE0, 0xEE], (⟨0xF0FF, formatXK 0x0 0 kk⟩ : OpRow) ∈ opcodeRows := by
  decide

theorem family8_row_mem : ∀ n : Fin 16, n.val ∉ [8, 9, 10, 11, 12, 13, 15] →
    (⟨0xF00F, formatXYN 0x8 0 0 n⟩ : OpRow) ∈ opcodeRows := by decide

theorem familyE_row_mem : ∀ kk ∈ [0x9E, 0xA1], (⟨0xF0FF, formatXK 0xE 0 kk⟩ : OpRow) ∈ opcodeRows := by
  decide

theorem familyF_row_mem : ∀ kk ∈ [0x07, 0x0A, 0x15, 0x18, 0x1E, 0x29, 0x33, 0x55, 0x65],
    (⟨0xF0FF, formatXK 0xF 0 kk⟩ : OpRow) ∈ opcodeRows := by decide

theorem exists_row_of_not_invalid {op : Word} (h : ¬ InvalidByFamily op) :
    ∃ r ∈ opcodeRows, op &&& r.mask = r.pattern := by
  simp only [InvalidByFamily, not_or, not_and, not_not] at h
  obtain ⟨h0, h8, hE, hF⟩ := h
  by_cases hf : opFamily op ∈ [0x0, 0x8, 0xE, 0xF]
  · simp only [List.mem_cons, List.not_mem_nil, or_false] at hf
    obtain hf | hf | hf | hf := hf
    · exact ⟨_, family0_row_mem _ (h0 hf), maskedSub_iff.mpr ⟨hf, rfl⟩⟩
    · exact ⟨_, family8_row_mem _ (h8 hf), masked8_iff.mpr ⟨hf, rfl⟩⟩
    · exact ⟨_, familyE_row_mem _ (hE hf), maskedSub_iff.mpr ⟨hf, rfl⟩⟩
    · exact ⟨_, familyF_row_mem _ (hF hf), maskedSub_iff.mpr ⟨hf, rfl⟩⟩
  · exact ⟨_, family_row_mem _ hf, masked_iff.mpr rfl⟩

theorem nibble_undecoded : ∀ n : BitVec 4, n.toFin.val ∈ [8, 9, 10, 11, 12, 13, 15] →
    n ∉ [0x0, 0x1, 0x2, 0x3, 0x4, 0x5, 0x6, 0x7, 0xE] := by decide

/-- The decoder's rule for the listed words: the family's second level has no branch for the sub-code. -/
theorem decodeOp_of_invalid {op : Word} (h : InvalidByFamily op) :
    decodeOp op = .error (.invalidInstruction op) := by
  obtain ⟨hf, hk⟩ | ⟨hf, hn⟩ | ⟨hf, hk⟩ | ⟨hf, hk⟩ := h
  · simp_all [decodeOp, decodeFamily0]
  · have hn' := nibble_undecoded (opNibble op) hn
    simp_all [decodeOp, decodeFamily8]
  · simp_all [decodeOp, decodeFamilyE]
  · simp_all [decodeOp, decodeFamilyF]

/-! ### The rows of the map are the rows of the instructions -/

/-- One instruction of each row, in the order of R65. -/
def rowInstrs : List Instr :=
  [.cls, .ret, .jp 0, .call 0, .seVxKk 0 0, .sneVxKk 0 0, .seVxVy 0 0, .ldVxKk 0 0, .addVxKk 0 0,
   .ldVxVy 0 0, .orVxVy 0 0, .andVxVy 0 0, .xorVxVy 0 0, .addVxVy 0 0, .sub 0 0, .shr 0 0, .subn 0 0,
   .shl 0 0, .sneVxVy 0 0, .ldINnn 0, .jpV0 0, .rnd 0 0, .drw 0 0 0, .skp 0, .sknp 0, .ldVxDt 0, .ldVxK 0,
   .ldDtVx 0, .ldStVx 0, .addIVx 0, .ldFVx 0, .ldBVx 0, .ldMiVx 0, .ldVxMi 0]

theorem map_row_rowInstrs : rowInstrs.map Instr.row = opcodeRows := rfl

theorem exists_instr_of_row {r : OpRow} (h : r ∈ opcodeRows) : ∃ i : Instr, i.row = r := by
  rw [← map_row_rowInstrs] at h
  obtain ⟨i, _, hi⟩ := List.mem_map.mp h
  exact ⟨i, hi⟩

theorem row_mem_opcodeRows (i : Instr) : i.row ∈ opcodeRows := by
  cases i <;> simp [Instr.row, opcodeRows, opcodeRowsLow, opcodeRows8, opcodeRowsHigh]

/-- The decoder's rule for a row of the map. -/
theorem decodeOp_of_mem_opcodeRows {op : Word} {r : OpRow} (hr : r ∈ opcodeRows)
    (h : op &&& r.mask = r.pattern) : ∃ i, decodeOp op = .ok i ∧ Spells op i ∧ i.row = r := by
  obtain ⟨i, rfl⟩ := exists_instr_of_row hr
  exact ⟨i.atWord op, decodeOp_of_row i op h, spells_atWord h, row_atWord i op⟩

/-! ### What the decoder answers -/

theorem decodeOp_eq_ok_iff {op : Word} {i : Instr} : decodeOp op = .ok i ↔ Spells op i := by
  refine ⟨fun h => ?_, decodeOp_of_spells⟩
  by_cases hv : InvalidByFamily op
  · cases (decodeOp_of_invalid hv).symm.trans h
  · obtain ⟨r, hr, hop⟩ := exists_row_of_not_invalid hv
    obtain ⟨j, hj, hspells, _⟩ := decodeOp_of_mem_opcodeRows hr hop
    cases hj.symm.trans h
    exact hspells

theorem decodeOp_eq_error_iff {op : Word} :
    decodeOp op = .error (.invalidInstruction op) ↔ InvalidByFamily op := by
  refine ⟨fun h => ?_, decodeOp_of_invalid⟩
  by_contra hv
  obtain ⟨r, hr, hop⟩ := exists_row_of_not_invalid hv
  obtain ⟨i, hi, _, _⟩ := decodeOp_of_mem_opcodeRows hr hop
  cases hi.symm.trans h

/-- Settles O41: the list of R66 is the one the decoder's rule is stated by. -/
theorem invalidWordsByFamily : Obligations.InvalidWordsByFamily := fun _ => decodeOp_eq_error_iff

/-- Two rows with a word in common are the row of the instruction that the word decodes to. -/
theorem row_unique {op : Word} {r q : OpRow} (hr : r ∈ opcodeRows) (hq : q ∈ opcodeRows)
    (hopr : op &&& r.mask = r.pattern) (hopq : op &&& q.mask = q.pattern) : r = q := by
  obtain ⟨i, hi, _, rfl⟩ := decodeOp_of_mem_opcodeRows hr hopr
  obtain ⟨j, hj, _, rfl⟩ := decodeOp_of_mem_opcodeRows hq hopq
  cases hi.symm.trans hj
  rfl

/-- Settles O40. -/
theorem decoderIsOpcodeMap : Obligations.DecoderIsOpcodeMap := by
  refine ⟨rfl, fun _ _ _ => row_unique, fun op => ⟨?_, ?_, ?_⟩⟩
  · intro i h
    obtain ⟨hrow, _⟩ := decodeOp_eq_ok_iff.mp h
    exact ⟨row_mem_opcodeRows i, hrow⟩
  · intro r hr hop
    obtain ⟨i, hi, _, hrow⟩ := decodeOp_of_mem_opcodeRows hr hop
    exact ⟨i, hi, hrow⟩
  · intro hnone
    refine decodeOp_of_invalid (by_contra fun hv => ?_)
    obtain ⟨r, hr, hop⟩ := exists_row_of_not_invalid hv
    exact hnone r hr hop

/-! ### Clearing the ignored bits (R67) -/

theorem clear_of_canonical {op : Word} (h : canonicalWord op = true) : op &&& ~~~ignoredBits op = op := by
  have hz : op &&& ignoredBits op = 0 := beq_iff_eq.mp h
  apply BitVec.eq_of_getLsbD_eq
  intro k hk
  simpa [hk] using congrArg (BitVec.getLsbD · k) hz

theorem clear_of_family {op : Word} {f : BitVec 4} (hop : opFamily op = f) (hf : f ∉ [0x0, 0x5, 0x9]) :
    op &&& ~~~ignoredBits op = op := by
  simp only [List.mem_cons, List.not_mem_nil, not_or] at hf
  obtain ⟨h0, h5, h9, _⟩ := hf
  exact clear_of_canonical (canonical_of_family (hop ▸ h0) (hop ▸ h5) (hop ▸ h9))

theorem formatA_eq_clear {op : Word} {f : BitVec 4} (hop : opFamily op = f) (hf : f ∉ [0x0, 0x5, 0x9]) :
    formatA f (opNNN op) = op &&& ~~~ignoredBits op := by
  rw [clear_of_family hop hf, ← hop, formatA_fields]

theorem formatXK_eq_clear {op : Word} {f : BitVec 4} {kk : Byte} (hop : opFamily op = f ∧ opKK op = kk)
    (hf : f ∉ [0x0, 0x5, 0x9]) : formatXK f (opX op) kk = op &&& ~~~ignoredBits op := by
  obtain ⟨hop, rfl⟩ := hop
  rw [clear_of_family hop hf, ← hop, formatXK_fields]

theorem formatXYN_eq_clear {op : Word} {f : BitVec 4} {n : Fin 16} (hop : opFamily op = f ∧ opN op = n)
    (hf : f ∉ [0x0, 0x5, 0x9]) : formatXYN f (opX op) (opY op) n = op &&& ~~~ignoredBits op := by
  obtain ⟨hop, rfl⟩ := hop
  rw [clear_of_family hop hf, ← hop, formatXYN_fields]

theorem formatXYN_and_FFF0 (f : BitVec 4) (x y : RegNo) (n : Fin 16) :
    formatXYN f x y n &&& 0xFFF0 = formatXYN f x y 0 :=
  (BitVec.and_append (x₂ := BitVec.allOnes 12) (y₂ := 0#4)).trans
    (by rw [BitVec.and_allOnes, BitVec.and_zero]; rfl)

/-- Families 5 and 9: the low nibble is the ignored one (D8). -/
theorem formatXY_eq_clear {op : Word} {f : BitVec 4} (hop : opFamily op = f) (hf : f = 0x5 ∨ f = 0x9) :
    formatXYN f (opX op) (opY op) 0 = op &&& ~~~ignoredBits op := by
  have hclear : ~~~ignoredBits op = 0xFFF0 := by
    rw [opFamily] at hop
    obtain rfl | rfl := hf <;> simp [ignoredBits, hop]
  rw [hclear, ← formatXYN_and_FFF0 _ _ _ (opN op), ← hop, formatXYN_fields]

/-- Family 0: what is ignored is what the row's mask leaves out (D7). -/
theorem formatZ_eq_clear {op : Word} {kk : Byte} (h : op &&& 0xF0FF = formatXK 0x0 0 kk) :
    formatZ kk = op &&& ~~~ignoredBits op := by
  obtain ⟨hop, _⟩ := maskedSub_iff.mp h
  have hignored : ignoredBits op = 0x0F00 := if_pos hop
  rw [hignored]
  exact h.symm

/-- Encoding what a word spells on a row clears the word's ignored bits, format by format (R70). -/
theorem encode_atWord {op : Word} (i : Instr) (h : op &&& i.row.mask = i.row.pattern) :
    encode (i.atWord op) = op &&& ~~~ignoredBits op := by
  cases i with
  | cls | ret => exact formatZ_eq_clear h
  | jp | call | ldINnn | jpV0 => exact formatA_eq_clear (masked_iff.mp h) (by decide)
  | seVxKk | sneVxKk | ldVxKk | addVxKk | rnd =>
    exact formatXK_eq_clear ⟨masked_iff.mp h, rfl⟩ (by decide)
  | seVxVy | sneVxVy => exact formatXY_eq_clear (masked_iff.mp h) (by decide)
  | drw => exact formatXYN_eq_clear ⟨masked_iff.mp h, rfl⟩ (by decide)
  | ldVxVy | orVxVy | andVxVy | xorVxVy | addVxVy | sub | shr | subn | shl =>
    exact formatXYN_eq_clear (masked8_iff.mp h) (by decide)
  | skp | sknp | ldVxDt | ldVxK | ldDtVx | ldStVx | addIVx | ldFVx | ldBVx | ldMiVx | ldVxMi =>
    exact formatXK_eq_clear (maskedSub_iff.mp h) (by decide)

/-- Settles O39: the instruction is the one the word spells on its row. -/
theorem encodeOfDecodeClearsIgnoredBits : Obligations.EncodeOfDecodeClearsIgnoredBits := by
  intro op i h
  obtain ⟨hrow, hi⟩ := decodeOp_eq_ok_iff.mp h
  have hclear : encode i = op &&& ~~~ignoredBits op := by
    conv_lhs => rw [← hi]
    exact encode_atWord i hrow
  exact ⟨hclear, fun hcanon => hclear.trans (clear_of_canonical hcanon)⟩

end Sys2Proof
end

section
/-! PROOFS. One step of a running machine (spec/40_engine_step.md R81, R83, R84, R88): which of the Engine's
branches it takes, read from PC and from the word that stands there. -/

namespace Sys2Proof.Machine

open Sys2Proof.Claims

variable {s : State}

theorem advancePc_eq_advanced (pc : Word) : advancePc pc = advanced pc := by
  apply BitVec.eq_of_toNat_eq
  rw [advancePc_toNat, advanced]
  split
  · rfl
  · exact (Nat.mod_eq_of_lt (by omega)).symm

/-! ### The three branches -/

theorem engineStep_of_fetch_fault (hh : s.halt = false) (hp : 4095 ≤ s.pc.toNat) :
    engineStep s = .next (s.beginStep.raise .addressOutOfRange (.fetch s.pc)) := by
  simp [engineStep, hh, State.fetch_eq, hp.not_gt]

/-- The fetched word is the statements' word at PC. -/
theorem fetch_eq_wordAt (hp : s.pc.toNat < 4095) : s.fetch = .ok (wordAt s) := State.fetch_of_lt hp

theorem engineStep_of_invalid (hh : s.halt = false) (hp : s.pc.toNat < 4095) {e : Reject}
    (hd : decodeOp (wordAt s) = .error e) :
    engineStep s =
      .next ((s.beginStep.holdOp (wordAt s)).advance.setReport (.invalid s.pc (wordAt s))) := by
  simp [engineStep, hh, fetch_eq_wordAt hp, hd]

theorem engineStep_of_decoded (hh : s.halt = false) (hp : s.pc.toNat < 4095) {i : Instr}
    (hd : decodeOp (wordAt s) = .ok i) :
    engineStep s = exec i (s.beginStep.holdOp (wordAt s)).advance := by
  simp [engineStep, hh, fetch_eq_wordAt hp, hd]

/-! ### The step's obligations -/

/-- Settles O33: raising the fault writes the latch and the report, and PC was not yet advanced. -/
theorem fetchFaultKeepsPc : Obligations.FetchFaultKeepsPc := fun e s hh hp =>
  ⟨_, engineStep_of_fetch_fault (s := s.presentEnv e) hh hp, rfl, rfl, fun _ => rfl⟩

/-- Settles O31: the opcode map covers every word the decoder accepts, so this one takes the branch that
only advances and reports. -/
theorem invalidWordOnlyAdvances : Obligations.InvalidWordOnlyAdvances := by
  intro e s hh hp hnone
  obtain ⟨_, _, hmap⟩ := decoderIsOpcodeMap
  obtain ⟨_, _, hinvalid⟩ := hmap (wordAt s)
  refine ⟨_, engineStep_of_invalid (s := s.presentEnv e) hh hp (hinvalid hnone), ?_, rfl, fun _ => rfl⟩
  rw [← advancePc_eq_advanced]
  rfl

/-- Settles O30: the state the instruction is given is the arrived one, its wires held and PC advanced. -/
theorem stepRunsDecodedInstruction : Obligations.StepRunsDecodedInstruction := by
  intro s i hh hp hd
  rw [← advancePc_eq_advanced]
  exact engineStep_of_decoded (s := s.arrive) hh hp hd

end Sys2Proof.Machine
end

section
/-! PROOFS. What an instruction may write (spec/40_engine_step.md R86; D33): one rule per state operation, then
one instruction. The same case split shows that every instruction answers a next state (R93, R207). -/

namespace Sys2Proof.Machine

open Sys2Proof.Claims

/-- From `s` to `t` only components change that the instruction is named a writer of (R86). -/
structure WritesOnly (i : Instr) (s t : State) : Prop where
  reg   : ∀ r, ¬ (mayWriteReg i r = true ∨ (r = vf ∧ writesFlag i = true)) → t.reg r = s.reg r
  index : ¬ writesI i = true → t.i = s.i
  pc    : ¬ writesPc i = true → t.pc = s.pc
  sp    : ¬ writesStack i = true → t.sp = s.sp
  stack : ¬ writesStack i = true → t.stack = s.stack
  dt    : ¬ (∃ x, i = .ldDtVx x) → t.dt = s.dt
  st    : ¬ (∃ x, i = .ldStVx x) → t.st = s.st
  disp  : ¬ writesDisplay i = true → t.disp = s.disp
  mem   : ¬ writesMemory i = true → t.mem = s.mem
  font  : t.mem.font = s.mem.font

namespace WritesOnly

variable {i : Instr} {s t u : State}

/-! ### What each update writes -/

theorem refl (i : Instr) (s : State) : WritesOnly i s s := by constructor <;> intros <;> rfl

theorem trans (h : WritesOnly i s t) (h' : WritesOnly i t u) : WritesOnly i s u where
  reg r hr := (h'.reg r hr).trans (h.reg r hr)
  index hi := (h'.index hi).trans (h.index hi)
  pc hi := (h'.pc hi).trans (h.pc hi)
  sp hi := (h'.sp hi).trans (h.sp hi)
  stack hi := (h'.stack hi).trans (h.stack hi)
  dt hi := (h'.dt hi).trans (h.dt hi)
  st hi := (h'.st hi).trans (h.st hi)
  disp hi := (h'.disp hi).trans (h.disp hi)
  mem hi := (h'.mem hi).trans (h.mem hi)
  font := h'.font.trans h.font

theorem setReg {x : RegNo} (hx : mayWriteReg i x = true ∨ (x = vf ∧ writesFlag i = true)) (b : Byte) :
    WritesOnly i s (s.setReg x b) :=
  { refl i s with
    reg := fun r hr => by
      have hne : r ≠ x := fun e => hr (e ▸ hx)
      rw [State.setReg_reg, if_neg hne] }

/-- The instruction's result in its destination `V[x]`. -/
theorem setDest {x : RegNo} (hx : ∀ r, mayWriteReg i r = (r == x)) (b : Byte) :
    WritesOnly i s (s.setReg x b) :=
  setReg (.inl ((hx x).trans (beq_self_eq_true x))) b

/-- A flag in VF, then the result (R14). -/
theorem setFlagAndReg (hflag : writesFlag i = true) {x : RegNo} (hx : ∀ r, mayWriteReg i r = (r == x))
    (g b : Byte) : WritesOnly i s (s.setFlagAndReg g x b) :=
  (setReg (.inr ⟨rfl, hflag⟩) g).trans (setDest hx b)

/-- FX65 is named the writer of exactly the registers it loads (R145). -/
theorem loadRegsUpTo (x : RegNo) (bs : List Byte) : WritesOnly (.ldVxMi x) s (s.loadRegsUpTo x bs) where
  reg r hr := by
    have hgt : ¬ r.val ≤ x.val := fun hle => hr (.inl (decide_eq_true hle))
    rw [State.loadRegsUpTo_reg, if_neg hgt]
  index _ := s.loadRegsUpTo_i x bs
  pc _ := s.loadRegsUpTo_pc x bs
  sp _ := s.loadRegsUpTo_sp x bs
  stack _ := s.loadRegsUpTo_stack x bs
  dt _ := s.loadRegsUpTo_dt x bs
  st _ := s.loadRegsUpTo_st x bs
  disp _ := s.loadRegsUpTo_disp x bs
  mem _ := s.loadRegsUpTo_mem x bs
  font := congrArg Memory.font (s.loadRegsUpTo_mem x bs)

theorem setI (hi : writesI i = true) (a : Addr) : WritesOnly i s (s.setI a) :=
  { refl i s with index := fun hn => absurd hi hn }

theorem setPc (hi : writesPc i = true) (a : Word) : WritesOnly i s (s.setPc a) :=
  { refl i s with pc := fun hn => absurd hi hn }

theorem skipIf (hi : writesPc i = true) (c : Bool) : WritesOnly i s (s.skipIf c) := by
  cases c with
  | false => exact refl i s
  | true => exact setPc hi _

theorem setDt (x : RegNo) (b : Byte) : WritesOnly (.ldDtVx x) s (s.setDt b) :=
  { refl _ s with dt := fun hn => absurd ⟨x, rfl⟩ hn }

theorem setSt (x : RegNo) (b : Byte) : WritesOnly (.ldStVx x) s (s.setSt b) :=
  { refl _ s with st := fun hn => absurd ⟨x, rfl⟩ hn }

theorem setDisp (hi : writesDisplay i = true) (d : Vector PixelRow 32) : WritesOnly i s (s.setDisp d) :=
  { refl i s with disp := fun hn => absurd hi hn }

theorem setMem (hi : writesMemory i = true) {m : Memory} (hfont : m.font = s.mem.font) :
    WritesOnly i s (s.setMem m) :=
  { refl i s with mem := fun hn => absurd hi hn, font := hfont }

theorem push (hi : writesStack i = true) {a : Word} (hp : s.push a = .ok t) : WritesOnly i s t := by
  obtain ⟨_, he⟩ | ⟨_, he⟩ := s.push_cases a
  · cases he.symm.trans hp
    exact { refl i s with sp := fun hn => absurd hi hn, stack := fun hn => absurd hi hn }
  · cases he.symm.trans hp

theorem pop (hi : writesStack i = true) {a : Word} (hp : s.pop = .ok (a, t)) : WritesOnly i s t := by
  obtain ⟨_, he⟩ | ⟨_, he⟩ := s.pop_cases
  · cases he.symm.trans hp
    exact { refl i s with sp := fun hn => absurd hi hn, stack := fun hn => absurd hi hn }
  · cases he.symm.trans hp

/-- Taking a fault writes the latch and the report alone, and `WritesOnly` speaks of neither. -/
theorem raiseInsn (i : Instr) (s : State) (f : Fault) : WritesOnly i s (s.raiseInsn f) :=
  { refl i s with }

/-- A sprite goes to the display and its collision to VF (R165). -/
theorem drawAt (hdisp : writesDisplay i = true) (hflag : writesFlag i = true) (x y : Nat) (bs : List Byte) :
    WritesOnly i s (s.drawAt x y bs) :=
  (setDisp hdisp _).trans (setReg (.inr ⟨rfl, hflag⟩) _)

end WritesOnly

/-! ### One instruction -/

/-- The outcome is a next state in which the instruction wrote only what it is named a writer of. -/
def AnswersWriting (i : Instr) (s : State) (o : Host.Outcome State Fault Refusal) : Prop :=
  ∃ t, o = .next t ∧ WritesOnly i s t

variable {i : Instr} {s : State}

theorem AnswersWriting.next {t : State} (h : WritesOnly i s t) : AnswersWriting i s (.next t) := ⟨t, rfl, h⟩

theorem execRet_answersWriting (s : State) : AnswersWriting .ret s (execRet s) := by
  rw [execRet]
  cases hp : s.pop with
  | ok r => exact .next (.trans (.pop rfl hp) (.setPc rfl _))
  | error f => exact .next (.raiseInsn _ s f)

theorem execCall_answersWriting (nnn : Addr) (s : State) : AnswersWriting (.call nnn) s (execCall nnn s) := by
  rw [execCall]
  cases hp : s.push s.pc with
  | ok t => exact .next (.trans (.push rfl hp) (.setPc rfl _))
  | error f => exact .next (.raiseInsn _ s f)

theorem execDrw_answersWriting (x y : RegNo) (n : Fin 16) (s : State) :
    AnswersWriting (.drw x y n) s (execDrw x y n s) := by
  rw [execDrw]
  cases s.mem.readRange s.base n.val with
  | ok bs => exact .next (.drawAt rfl rfl _ _ bs)
  | error f => exact .next (.raiseInsn _ s f)

theorem execLdVxMi_answersWriting (x : RegNo) (s : State) :
    AnswersWriting (.ldVxMi x) s (execLdVxMi x s) := by
  rw [execLdVxMi]
  cases s.mem.readRange s.base (x.val + 1) with
  | ok bs => exact .next (.loadRegsUpTo x bs)
  | error f => exact .next (.raiseInsn _ s f)

theorem execLdVxK_answersWriting (x : RegNo) (s : State) : AnswersWriting (.ldVxK x) s (execLdVxK x s) := by
  rw [execLdVxK]
  cases s.port.env.poll with
  | some k => exact .next (.setDest (fun _ => rfl) _)
  | none => exact .next (.setPc rfl _)

theorem storeAtI_answersWriting (hi : writesMemory i = true) (bs : List Byte) :
    AnswersWriting i s (s.storeAtI bs) := by
  rw [State.storeAtI_eq]
  split
  · exact .next (.setMem hi (Memory.putAll_font ..))
  · exact .next (.raiseInsn i s _)

/-- Every instruction, from every state, answers a next state and writes only what it is named a writer of. -/
theorem exec_answersWriting (i : Instr) (s : State) : AnswersWriting i s (exec i s) := by
  cases i with
  | ldVxKk | addVxKk | ldVxVy | orVxVy | andVxVy | xorVxVy | rnd | ldVxDt =>
    exact .next (.setDest (fun _ => rfl) _)
  | addVxVy | sub | shr | subn | shl => exact .next (.setFlagAndReg rfl (fun _ => rfl) _ _)
  | seVxKk | sneVxKk | seVxVy | sneVxVy | skp | sknp => exact .next (.skipIf rfl _)
  | ldINnn | addIVx | ldFVx => exact .next (.setI rfl _)
  | jp | jpV0 => exact .next (.setPc rfl _)
  | ldDtVx x => exact .next (.setDt x _)
  | ldStVx x => exact .next (.setSt x _)
  | cls => exact .next (.setDisp rfl _)
  | ret => exact execRet_answersWriting s
  | call nnn => exact execCall_answersWriting nnn s
  | drw x y n => exact execDrw_answersWriting x y n s
  | ldVxK x => exact execLdVxK_answersWriting x s
  | ldBVx | ldMiVx => exact storeAtI_answersWriting rfl _
  | ldVxMi x => exact execLdVxMi_answersWriting x s

/-- Settles O47: a changed component is one the instruction is named a writer of. -/
theorem onlyNamedWriters : Obligations.OnlyNamedWriters := by
  intro i s t ht
  obtain ⟨u, hu, hw⟩ := exec_answersWriting i s
  cases hu.symm.trans ht
  exact ⟨fun r => not_imp_comm.mp (hw.reg r), not_imp_comm.mp hw.index, not_imp_comm.mp hw.pc,
    fun h => h.elim (not_imp_comm.mp hw.sp) (not_imp_comm.mp hw.stack), not_imp_comm.mp hw.dt,
    not_imp_comm.mp hw.st, not_imp_comm.mp hw.disp, not_imp_comm.mp hw.mem, hw.font⟩

/-! ### Nothing stops the machine -/

theorem exec_next (i : Instr) (s : State) : ∃ t, exec i s = .next t := by
  obtain ⟨t, ht, _⟩ := exec_answersWriting i s
  exact ⟨t, ht⟩

theorem engineStep_next (s : State) : ∃ t, engineStep s = .next t := by
  obtain ⟨_, he⟩ | ⟨_, _, he⟩ | ⟨_, _, _, _, _, he⟩ | ⟨_, i, _, _, _, he⟩ := engineStep_cases s
  · exact ⟨_, he⟩
  · exact ⟨_, he⟩
  · exact ⟨_, he⟩
  · rw [he]
    exact exec_next i _

/-- Settles O46. -/
theorem nothingStopsTheMachine : Obligations.NothingStopsTheMachine :=
  ⟨exec_next, fun s => engineStep_next s.arrive⟩

end Sys2Proof.Machine
end

section
/-! PROOFS. The input record (spec/40_engine_step.md R89; D35): presenting another record before an instruction
is presenting it afterwards, unless the instruction reads a part in which the two records differ. -/

namespace Sys2Proof.Machine

open Sys2Proof.Claims

variable {s : State} {e : Env}

/-! ### The shared operations do not read the record -/

theorem skipIf_presentEnv (c : Bool) : (s.presentEnv e).skipIf c = (s.skipIf c).presentEnv e := by
  cases c <;> rfl

@[simp] theorem base_presentEnv : (s.presentEnv e).base = s.base := rfl

theorem push_presentEnv (a : Word) : (s.presentEnv e).push a = (s.push a).map (·.presentEnv e) := by
  obtain ⟨h, hp⟩ | ⟨h, hp⟩ := s.push_cases a
  · rw [hp]
    exact dif_pos h
  · rw [hp]
    exact State.push_full (s := s.presentEnv e) h a

theorem pop_presentEnv : (s.presentEnv e).pop = s.pop.map (Prod.map id (·.presentEnv e)) := by
  obtain ⟨h, hp⟩ | ⟨h, hp⟩ := s.pop_cases
  · rw [hp]
    exact dif_pos h
  · rw [hp]
    exact State.pop_empty (s := s.presentEnv e) h

/-! ### The instructions that may raise -/

theorem execRet_presentEnv : execRet (s.presentEnv e) = mapNext (·.presentEnv e) (execRet s) := by
  rw [execRet, execRet, pop_presentEnv]
  cases s.pop <;> rfl

theorem execCall_presentEnv (nnn : Addr) :
    execCall nnn (s.presentEnv e) = mapNext (·.presentEnv e) (execCall nnn s) := by
  rw [execCall, execCall, push_presentEnv, State.presentEnv_pc]
  cases s.push s.pc <;> rfl

theorem storeAtI_presentEnv (bs : List Byte) :
    (s.presentEnv e).storeAtI bs = mapNext (·.presentEnv e) (s.storeAtI bs) := by
  rw [State.storeAtI_eq, State.storeAtI_eq, base_presentEnv]
  split <;> rfl

theorem execDrw_presentEnv (x y : RegNo) (n : Fin 16) :
    execDrw x y n (s.presentEnv e) = mapNext (·.presentEnv e) (execDrw x y n s) := by
  rw [execDrw, execDrw, State.presentEnv_mem, base_presentEnv]
  cases s.mem.readRange s.base n.val <;> rfl

theorem execLdVxMi_presentEnv (x : RegNo) :
    execLdVxMi x (s.presentEnv e) = mapNext (·.presentEnv e) (execLdVxMi x s) := by
  rw [execLdVxMi, execLdVxMi, State.presentEnv_mem, base_presentEnv]
  cases s.mem.readRange s.base (x.val + 1) <;> rfl

/-! ### The instructions that read a part of the record -/

theorem keyDown_presentEnv (hk : e.keys = s.port.env.keys) (k : KeyNo) :
    (s.presentEnv e).keyDown k = s.keyDown k := congrArg (·.getLsbD k.val) hk

theorem execLdVxK_presentEnv (hp : e.poll = s.port.env.poll) (x : RegNo) :
    execLdVxK x (s.presentEnv e) = mapNext (·.presentEnv e) (execLdVxK x s) := by
  have hpoll : (s.presentEnv e).port.env.poll = s.port.env.poll := hp
  rw [execLdVxK, execLdVxK, hpoll]
  cases s.port.env.poll <;> rfl

/-- The record reaches an instruction only through the part it reads: the key states through EX9E and EXA1,
the poll answer through FX0A, the random byte through CXKK (R89). -/
theorem exec_presentEnv (i : Instr) (hskp : ∀ x, i = .skp x → e.keys = s.port.env.keys)
    (hsknp : ∀ x, i = .sknp x → e.keys = s.port.env.keys)
    (hpoll : ∀ x, i = .ldVxK x → e.poll = s.port.env.poll)
    (hrnd : ∀ x kk, i = .rnd x kk → e.rnd = s.port.env.rnd) :
    exec i (s.presentEnv e) = mapNext (·.presentEnv e) (exec i s) := by
  cases i with
  | skp x =>
    have hkey := keyDown_presentEnv (hskp x rfl) (lowNibble (s.reg x))
    exact congrArg Host.Outcome.next (hkey ▸ skipIf_presentEnv _)
  | sknp x =>
    have hkey := keyDown_presentEnv (hsknp x rfl) (lowNibble (s.reg x))
    exact congrArg Host.Outcome.next (hkey ▸ skipIf_presentEnv _)
  | ldVxK x => exact execLdVxK_presentEnv (hpoll x rfl) x
  | rnd x kk =>
    exact congrArg (fun b => Host.Outcome.next ((s.presentEnv e).setReg x (b &&& kk))) (hrnd x kk rfl)
  | seVxKk | sneVxKk | seVxVy | sneVxVy => exact congrArg Host.Outcome.next (skipIf_presentEnv _)
  | ldBVx | ldMiVx => exact storeAtI_presentEnv _
  | ret => exact execRet_presentEnv
  | call nnn => exact execCall_presentEnv nnn
  | drw x y n => exact execDrw_presentEnv x y n
  | ldVxMi x => exact execLdVxMi_presentEnv x
  | ldVxKk | addVxKk | ldVxVy | orVxVy | andVxVy | xorVxVy | addVxVy | sub | shr | subn | shl | ldINnn
  | addIVx | ldFVx | jp | jpV0 | ldVxDt | ldDtVx | ldStVx | cls => rfl

/-- Settles O50: each clause replaces one part of the record and keeps the parts other instructions read. -/
theorem inputsReachOnlyTheirInstructions : Obligations.InputsReachOnlyTheirInstructions := fun i _ _ =>
  ⟨fun hskp hsknp => exec_presentEnv i (fun x hi => absurd hi (hskp x)) (fun x hi => absurd hi (hsknp x))
      (fun _ _ => rfl) (fun _ _ _ => rfl),
    fun hk => exec_presentEnv i (fun _ _ => rfl) (fun _ _ => rfl) (fun x hi => absurd hi (hk x))
      (fun _ _ _ => rfl),
    fun hrnd => exec_presentEnv i (fun _ _ => rfl) (fun _ _ => rfl) (fun _ _ => rfl)
      (fun x kk hi => absurd hi (hrnd x kk))⟩

end Sys2Proof.Machine
end

section
/-! PROOFS. Control transfer (spec/41_flow.md R100 to R107): the decoder's rule for each row, what each instruction
answers, and the one-step loop of a jump to its own address. -/

namespace Sys2Proof.Machine

open Sys2Proof.Claims

variable {s t u : State}

/-! ### Jumps (R101, R107) -/

theorem exec_jp (nnn : Addr) (s : State) : exec (.jp nnn) s = .next (s.setPc (zextAddr nnn)) := rfl

theorem exec_jpV0 (nnn : Addr) (s : State) :
    exec (.jpV0 nnn) s = .next (s.setPc (zextAddr nnn + zextByte (s.reg 0))) := rfl

/-- The sum of BNNN fits PC, so it is the sum over the integers (R107). -/
theorem zextAddr_add_zextByte_toNat (a : Addr) (b : Byte) :
    (zextAddr a + zextByte b).toNat = a.toNat + b.toNat := by
  have := a.isLt
  have := b.isLt
  simp only [zextAddr, zextByte, BitVec.toNat_add, BitVec.toNat_setWidth]
  omega

/-- Settles O1: the row's rule in the decoder, and the jump's meaning. -/
theorem jumpLoadsTarget : Obligations.JumpLoadsTarget := ⟨decodeOp_of_row (.jp 0), exec_jp⟩

/-- Settles O6: the PC the sum is written to holds it without reduction. -/
theorem jumpPlusV0 : Obligations.JumpPlusV0 :=
  ⟨decodeOp_of_row (.jpV0 0), fun nnn s =>
    ⟨_, exec_jpV0 nnn s, zextAddr_add_zextByte_toNat nnn (s.reg 0), rfl, fun _ => rfl⟩⟩

/-! ### Skips (R91, R103 to R106) -/

theorem skipIf_beq (s : State) (a b : Byte) :
    s.skipIf (a == b) = { s with pc := if a = b then s.pc + 2 else s.pc } := by
  simp [State.skipIf_eq]

theorem skipIf_bne (s : State) (a b : Byte) :
    s.skipIf (a != b) = { s with pc := if a = b then s.pc else s.pc + 2 } := by
  by_cases h : a = b <;> simp [State.skipIf_eq, h]

/-- Settles O4: a skip, read by the comparison that decides it. -/
theorem skipOnImmediate : Obligations.SkipOnImmediate :=
  ⟨decodeOp_of_row (.seVxKk 0 0), decodeOp_of_row (.sneVxKk 0 0), fun x kk s =>
    ⟨congrArg Host.Outcome.next (skipIf_beq s (s.reg x) kk),
      congrArg Host.Outcome.next (skipIf_bne s (s.reg x) kk)⟩⟩

/-- Settles O5: the rows of 5XY_ and 9XY_ leave the low nibble of the word open (D8). -/
theorem skipOnRegisters : Obligations.SkipOnRegisters :=
  ⟨decodeOp_of_row (.seVxVy 0 0), decodeOp_of_row (.sneVxVy 0 0), fun x y s =>
    ⟨congrArg Host.Outcome.next (skipIf_beq s (s.reg x) (s.reg y)),
      congrArg Host.Outcome.next (skipIf_bne s (s.reg x) (s.reg y))⟩⟩

/-! ### Call and return (R100, R102) -/

theorem raiseInsn_eq_faulted (s : State) (f : Fault) : s.raiseInsn f = Faulted s f.code := rfl

theorem exec_call_of_push {nnn : Addr} (h : s.push s.pc = .ok t) :
    exec (.call nnn) s = .next (t.setPc (zextAddr nnn)) := by
  rw [exec, execCall, h, State.orRaise_ok]

theorem exec_call_of_push_error {nnn : Addr} {f : Fault} (h : s.push s.pc = .error f) :
    exec (.call nnn) s = .next (Faulted s f.code) := by
  rw [exec, execCall, h, State.orRaise_error, raiseInsn_eq_faulted]

theorem exec_ret_of_pop {a : Word} (h : s.pop = .ok (a, t)) : exec .ret s = .next (t.setPc a) := by
  rw [exec, execRet, h, State.orRaise_ok]

theorem exec_ret_of_pop_error {f : Fault} (h : s.pop = .error f) :
    exec .ret s = .next (Faulted s f.code) := by
  rw [exec, execRet, h, State.orRaise_error, raiseInsn_eq_faulted]

/-- Settles O2: the push either stores the advanced PC at SP or overflows. -/
theorem callPushesReturnAddress : Obligations.CallPushesReturnAddress := by
  refine ⟨decodeOp_of_row (.call 0), fun nnn s => ?_⟩
  obtain ⟨hsp, hpush⟩ | ⟨hsp, hpush⟩ := s.push_cases s.pc
  · refine ⟨_, exec_call_of_push hpush, fun _ => ⟨rfl, rfl, fun k => ?_, rfl, fun _ => rfl⟩, by omega⟩
    simp [Vector.getElem_set, eq_comm]
  · exact ⟨_, exec_call_of_push_error hpush, by omega, fun _ => rfl⟩

/-- Settles O3: the pop either returns the newest entry or underflows. -/
theorem returnPopsIntoPc : Obligations.ReturnPopsIntoPc := by
  refine ⟨decodeOp_of_row .ret, fun s => ?_⟩
  obtain ⟨hsp, hpop⟩ | ⟨hsp, hpop⟩ := s.pop_cases
  · exact ⟨_, exec_ret_of_pop hpop, fun k hk => ⟨by simp [hk], by simp [hk], rfl, fun _ => rfl⟩, by omega⟩
  · exact ⟨_, exec_ret_of_pop_error hpop, by omega, fun _ => rfl⟩

/-! ### A jump to itself (R101, R183, R241) -/

/-- The word that jumps to the low 12 bits of an address. -/
theorem encode_jp_setWidth (a : Word) : encode (.jp (a.setWidth 12)) = 0x1000 ||| (a &&& 0x0FFF) := by
  have hlow : a.toNat &&& 4095 = a.toNat % 4096 := Nat.and_two_pow_sub_one_eq_mod a.toNat 12
  apply BitVec.eq_of_toNat_eq
  rw [encode, formatA, BitVec.toNat_append]
  simp [hlow]

theorem zextAddr_setWidth {a : Word} (h : a.toNat < 4096) : zextAddr (a.setWidth 12) = a := by
  apply BitVec.eq_of_toNat_eq
  simp only [zextAddr, BitVec.toNat_setWidth]
  omega

/-- `t` is `s` but for the model's port and timers that have not risen. -/
structure Parked (s t : State) : Prop where
  frame : t = { s with dt := t.dt, st := t.st, port := t.port }
  dt_le : t.dt.toNat ≤ s.dt.toNat
  st_le : t.st.toNat ≤ s.st.toNat

theorem Parked.refl (s : State) : Parked s s := ⟨rfl, le_rfl, le_rfl⟩

theorem Parked.trans (h : Parked s t) (h' : Parked t u) : Parked s u where
  frame := h'.frame.trans
    (congrArg (fun r : State => { r with dt := u.dt, st := u.st, port := u.port }) h.frame)
  dt_le := h'.dt_le.trans h.dt_le
  st_le := h'.st_le.trans h.st_le

theorem ofNat_toNat_sub_le (b : Byte) (n : Nat) : (BitVec.ofNat 8 (b.toNat - n)).toNat ≤ b.toNat := by
  rw [BitVec.toNat_ofNat]
  exact (Nat.mod_le _ _).trans (Nat.sub_le _ _)

/-- The surroundings write the port and let the timers fall (R183). -/
theorem parked_arrive (s : State) : Parked s s.arrive :=
  ⟨rfl, ofNat_toNat_sub_le s.dt _, ofNat_toNat_sub_le s.st _⟩

/-- A running machine whose word at PC is the jump to PC. -/
structure AtSelfJump (s : State) : Prop where
  running : s.halt = false
  fetches : s.pc.toNat < 4095
  word    : wordAt s = 0x1000 ||| (s.pc &&& 0x0FFF)

theorem AtSelfJump.of_parked (h : AtSelfJump s) (hp : Parked s t) : AtSelfJump t := by
  rw [hp.frame]
  exact ⟨h.running, h.fetches, h.word⟩

/-- The jump undoes the advance, so the Engine's step writes the port alone. -/
theorem AtSelfJump.engineStep (h : AtSelfJump s) : ∃ t, engineStep s = .next t ∧ Parked s t := by
  have hdecode : decodeOp (wordAt s) = .ok (.jp (s.pc.setWidth 12)) := by
    rw [h.word, ← encode_jp_setWidth]
    exact decodeOp_of_spells (spells_encode _)
  have hpc : zextAddr (s.pc.setWidth 12) = s.pc := zextAddr_setWidth (by have := h.fetches; omega)
  have hstep := (engineStep_of_decoded h.running h.fetches hdecode).trans (exec_jp _ _)
  rw [hpc] at hstep
  exact ⟨_, hstep, rfl, le_rfl, le_rfl⟩

theorem AtSelfJump.step (h : AtSelfJump s) : ∃ t, step s = .next t ∧ Parked s t := by
  obtain ⟨t, ht, hp⟩ := (h.of_parked (parked_arrive s)).engineStep
  exact ⟨t, ht, (parked_arrive s).trans hp⟩

theorem run_succ_of_step {M : Host.Core} {s t : M.State} (h : M.step s = .next t) (k : Nat) :
    M.run (k + 1) s = M.run k t := by
  rw [Host.Core.run, h]

theorem AtSelfJump.run (h : AtSelfJump s) (k : Nat) :
    ∃ t, Host.Core.run core k s = .next t ∧ Parked s t := by
  induction k generalizing s with
  | zero => exact ⟨s, rfl, Parked.refl s⟩
  | succ k ih =>
    obtain ⟨t, ht, hp⟩ := h.step
    obtain ⟨u, hu, hpu⟩ := ih (h.of_parked hp)
    exact ⟨u, (run_succ_of_step (M := core) ht k).trans hu, hp.trans hpu⟩

/-- Settles O54, by induction on the number of steps: each leaves the machine parked where it was. -/
theorem jumpToSelfParks : Obligations.JumpToSelfParks := by
  intro k s hh hp hw
  obtain ⟨t, ht, hpark⟩ := AtSelfJump.run ⟨hh, hp, hw⟩ k
  exact ⟨t, ht, hpark.frame, hpark.dt_le, hpark.st_le⟩

end Sys2Proof.Machine
end

section
/-! PROOFS. Register load and ALU (spec/42_alu.md R120 to R131): the values and flags over the integers, what the
two register updates leave, and what each instruction answers. -/

namespace Sys2Proof.Machine

open Sys2Proof.Claims

/-! ### Values and flags over the integers (R8, R13, R126 to R130) -/

theorem satAdd8_toNat (a b : Byte) : (satAdd8 a b).toNat = min (a.toNat + b.toNat) 255 := by
  rw [satAdd8, BitVec.toNat_ofNat]
  omega

theorem satSub8_toNat (a b : Byte) : (satSub8 a b).toNat = a.toNat - b.toNat := by
  have := a.isLt
  rw [satSub8, BitVec.toNat_ofNat]
  omega

theorem shiftRight_one_toNat (a : Byte) : (a >>> 1).toNat = a.toNat / 2 := by
  rw [BitVec.toNat_ushiftRight, Nat.shiftRight_one]

theorem shiftLeft_one_toNat (a : Byte) : (a <<< 1).toNat = 2 * a.toNat % 256 := by
  rw [BitVec.toNat_shiftLeft, Nat.shiftLeft_eq, Nat.mul_comm]

theorem flagByte_decide (p : Prop) [Decidable p] : flagByte (decide p) = if p then 1 else 0 := by
  simp [flagByte]

theorem carryFlag_eq (a b : Byte) : carryFlag a b = if 255 < a.toNat + b.toNat then 1 else 0 :=
  flagByte_decide _

theorem notBorrowFlag_eq (a b : Byte) : notBorrowFlag a b = if b.toNat < a.toNat then 1 else 0 :=
  flagByte_decide _

theorem flagByte_toNat (c : Bool) : (flagByte c).toNat = c.toNat := by cases c <;> rfl

theorem lsbFlag_toNat (a : Byte) : (lsbFlag a).toNat = a.toNat % 2 := by
  rw [lsbFlag, flagByte_toNat, BitVec.getLsbD, Nat.toNat_testBit, pow_zero, Nat.div_one]

theorem msbFlag_toNat (a : Byte) : (msbFlag a).toNat = a.toNat / 128 := by
  have := a.isLt
  rw [msbFlag, flagByte_toNat, BitVec.getLsbD, Nat.toNat_testBit]
  omega

/-! ### What the two register updates leave (R12, R14) -/

namespace State

variable (s : State) (x : RegNo) (g b : Byte)

theorem setReg_reg_same : (s.setReg x b).reg x = b := by simp

theorem setReg_reg_frame (r : RegNo) :
    (s.setReg x b).reg r = if r = x then (s.setReg x b).reg x else s.reg r := by simp

theorem onlyRegs_setReg : OnlyRegs s (s.setReg x b) := ⟨rfl, fun _ => rfl⟩

theorem setFlagAndReg_reg_same : (s.setFlagAndReg g x b).reg x = b := by simp

theorem setFlagAndReg_reg_vf {x : RegNo} (hx : x ≠ vf) : (s.setFlagAndReg g x b).reg vf = g := by
  simp [hx.symm]

theorem setFlagAndReg_reg_of_ne {x r : RegNo} (hx : r ≠ x) (hf : r ≠ vf) :
    (s.setFlagAndReg g x b).reg r = s.reg r := by
  simp [hx, hf]

theorem onlyRegs_setFlagAndReg : OnlyRegs s (s.setFlagAndReg g x b) := ⟨rfl, fun _ => rfl⟩

end State

/-! ### Instructions that write one register and no flag (R120 to R125) -/

section
variable (x y : RegNo) (kk : Byte) (s : State)

theorem exec_ldVxKk : exec (.ldVxKk x kk) s = .next (s.setReg x kk) := rfl

theorem exec_addVxKk : exec (.addVxKk x kk) s = .next (s.setReg x (satAdd8 (s.reg x) kk)) := rfl

theorem exec_ldVxVy : exec (.ldVxVy x y) s = .next (s.setReg x (s.reg y)) := rfl

theorem exec_orVxVy : exec (.orVxVy x y) s = .next (s.setReg x (s.reg x ||| s.reg y)) := rfl

theorem exec_andVxVy : exec (.andVxVy x y) s = .next (s.setReg x (s.reg x &&& s.reg y)) := rfl

theorem exec_xorVxVy : exec (.xorVxVy x y) s = .next (s.setReg x (s.reg x ^^^ s.reg y)) := rfl

end

/-- Settles O7: the load is one register write. -/
theorem loadImmediate : Obligations.LoadImmediate :=
  ⟨decodeOp_of_row (.ldVxKk 0 0), fun x kk s =>
    ⟨_, exec_ldVxKk x kk s, s.setReg_reg x kk, s.onlyRegs_setReg x kk⟩⟩

/-- Settles O8: the one register write holds the saturated sum. -/
theorem addImmediateSaturates : Obligations.AddImmediateSaturates := by
  refine ⟨decodeOp_of_row (.addVxKk 0 0), fun x kk s =>
    ⟨_, exec_addVxKk x kk s, ?_, s.setReg_reg_frame x _, s.onlyRegs_setReg x _⟩⟩
  rw [State.setReg_reg_same, satAdd8_toNat]

/-- Settles O9: the copy is one register write of the value read before it. -/
theorem copyRegister : Obligations.CopyRegister :=
  ⟨decodeOp_of_row (.ldVxVy 0 0), fun x y s =>
    ⟨_, exec_ldVxVy x y s, s.setReg_reg x _, s.onlyRegs_setReg x _⟩⟩

/-- An instruction whose one effect is a register write answers that value, bit by bit, and its frame. -/
theorem answers_bits_of_setReg {i : Instr} {s : State} {x : RegNo} {v : Byte} {bit : Nat → Bool}
    (he : exec i s = .next (s.setReg x v)) (hv : ∀ k, v.getLsbD k = bit k) :
    ∃ t, exec i s = .next t ∧ (∀ k, k < 8 → (t.reg x).getLsbD k = bit k) ∧
      (∀ r, t.reg r = if r = x then t.reg x else s.reg r) ∧ OnlyRegs s t :=
  ⟨_, he, fun k _ => (s.setReg_reg_same x v).symm ▸ hv k, s.setReg_reg_frame x v, s.onlyRegs_setReg x v⟩

/-- Settles O10: one register write each, of the library's bitwise operation. -/
theorem bitwiseOperations : Obligations.BitwiseOperations :=
  ⟨decodeOp_of_row (.orVxVy 0 0), decodeOp_of_row (.andVxVy 0 0), decodeOp_of_row (.xorVxVy 0 0), fun x y s =>
    ⟨answers_bits_of_setReg (exec_orVxVy x y s) fun _ => BitVec.getLsbD_or,
      answers_bits_of_setReg (exec_andVxVy x y s) fun _ => BitVec.getLsbD_and,
      answers_bits_of_setReg (exec_xorVxVy x y s) fun _ => BitVec.getLsbD_xor⟩⟩

/-! ### Instructions that write a flag first and a register second (R14, R126 to R130) -/

section
variable (x y : RegNo) (s : State)

theorem exec_addVxVy : exec (.addVxVy x y) s =
    .next (s.setFlagAndReg (carryFlag (s.reg x) (s.reg y)) x (satAdd8 (s.reg x) (s.reg y))) := rfl

theorem exec_sub : exec (.sub x y) s =
    .next (s.setFlagAndReg (notBorrowFlag (s.reg x) (s.reg y)) x (satSub8 (s.reg x) (s.reg y))) := rfl

theorem exec_subn : exec (.subn x y) s =
    .next (s.setFlagAndReg (notBorrowFlag (s.reg y) (s.reg x)) x (satSub8 (s.reg y) (s.reg x))) := rfl

theorem exec_shr : exec (.shr x y) s = .next (s.setFlagAndReg (lsbFlag (s.reg x)) x (s.reg x >>> 1)) := rfl

theorem exec_shl : exec (.shl x y) s = .next (s.setFlagAndReg (msbFlag (s.reg x)) x (s.reg x <<< 1)) := rfl

end

/-- The flag, the result (which survives in VF when the destination is VF: D9) and the frame of an instruction
whose one effect is the flag-then-result write. -/
theorem answers_of_setFlagAndReg {i : Instr} {s : State} {x : RegNo} {g v : Byte} {n : Nat}
    (he : exec i s = .next (s.setFlagAndReg g x v)) (hv : v.toNat = n) (IsFlag : Byte → Prop) (hg : IsFlag g) :
    ∃ t, exec i s = .next t ∧ (t.reg x).toNat = n ∧ (x ≠ 15 → IsFlag (t.reg 15)) ∧
      (∀ r, r ≠ x → r ≠ 15 → t.reg r = s.reg r) ∧ OnlyRegs s t := by
  refine ⟨_, he, ?result, fun hx => ?flag, fun r => s.setFlagAndReg_reg_of_ne g v, s.onlyRegs_setFlagAndReg x g v⟩
  case result => rwa [State.setFlagAndReg_reg_same]
  case flag => rwa [State.setFlagAndReg_reg_vf s g v hx]

/-- Settles O11: the carry, then the saturated sum. -/
theorem addRegistersWithCarry : Obligations.AddRegistersWithCarry :=
  ⟨decodeOp_of_row (.addVxVy 0 0), fun x y s =>
    answers_of_setFlagAndReg (exec_addVxVy x y s) (satAdd8_toNat _ _) (· = _) (carryFlag_eq _ _)⟩

/-- Settles O12: the not-borrow, then the floored difference, in the two orders of the operands. -/
theorem subtractionsWithNotBorrow : Obligations.SubtractionsWithNotBorrow :=
  ⟨decodeOp_of_row (.sub 0 0), decodeOp_of_row (.subn 0 0), fun x y s =>
    ⟨answers_of_setFlagAndReg (exec_sub x y s) (satSub8_toNat _ _) (· = _) (notBorrowFlag_eq _ _),
      answers_of_setFlagAndReg (exec_subn x y s) (satSub8_toNat _ _) (· = _) (notBorrowFlag_eq _ _)⟩⟩

/-- Settles O13: the bit shifted out, then the shifted value; neither depends on `Y`. -/
theorem shiftsByOne : Obligations.ShiftsByOne :=
  ⟨decodeOp_of_row (.shr 0 0), decodeOp_of_row (.shl 0 0), fun x y s =>
    ⟨answers_of_setFlagAndReg (exec_shr x y s) (shiftRight_one_toNat _) (BitVec.toNat · = _) (lsbFlag_toNat _),
      answers_of_setFlagAndReg (exec_shl x y s) (shiftLeft_one_toNat _) (BitVec.toNat · = _) (msbFlag_toNat _)⟩⟩

end Sys2Proof.Machine
end

section
/-! PROOFS. Index register and memory (spec/43_index_memory.md R140 to R147): the values written to I, what a store
at I and a load from I answer, and the instructions made of them. -/

namespace Sys2Proof.Machine

open Sys2Proof.Claims

/-! ### Writing I (R140 to R142) -/

theorem exec_ldINnn (nnn : Addr) (s : State) : exec (.ldINnn nnn) s = .next (s.setI nnn) := rfl

theorem exec_addIVx (x : RegNo) (s : State) :
    exec (.addIVx x) s = .next (s.setI (indexPlus s.i (s.reg x))) := rfl

theorem exec_ldFVx (x : RegNo) (s : State) :
    exec (.ldFVx x) s = .next (s.setI (glyphAddr (s.reg x))) := rfl

theorem indexPlus_toNat (a : Addr) (b : Byte) : (indexPlus a b).toNat = (a.toNat + b.toNat) % 4096 :=
  BitVec.toNat_ofNat ..

theorem lowNibble_val (b : Byte) : (lowNibble b).val = b.toNat % 16 := by
  simp [lowNibble]

/-- Five times a digit is at most 75, so the 12 bits of I hold it (R142). -/
theorem glyphAddr_toNat (b : Byte) : (glyphAddr b).toNat = 5 * (b.toNat % 16) := by
  rw [glyphAddr, BitVec.toNat_ofNat, lowNibble_val]
  omega

/-- Settles O14: the load is one write of I. -/
theorem loadIndex : Obligations.LoadIndex :=
  ⟨decodeOp_of_row (.ldINnn 0), exec_ldINnn⟩

/-- Settles O15: the one write of I holds the sum, cut to the 12 bits of I. -/
theorem addToIndexModulo4096 : Obligations.AddToIndexModulo4096 :=
  ⟨decodeOp_of_row (.addIVx 0), fun x s =>
    ⟨_, exec_addIVx x s, indexPlus_toNat s.i (s.reg x), rfl, fun _ => rfl⟩⟩

/-- Settles O16: the one write of I holds the glyph's address. -/
theorem glyphAddress : Obligations.GlyphAddress :=
  ⟨decodeOp_of_row (.ldFVx 0), fun x s =>
    ⟨_, exec_ldFVx x s, glyphAddr_toNat (s.reg x), rfl, fun _ => rfl⟩⟩

/-! ### Stores at I (R143, R144, R147) -/

/-- `t` is `s` with the bytes `bs` stored from I on, and nothing else changed. -/
structure StoredAtI (s : State) (bs : List Byte) (t : State) : Prop where
  stored : ∀ k, k < bs.length → t.mem.byte (s.base + k) = bs.getD k 0
  others : ∀ a, a < s.base ∨ s.base + bs.length ≤ a → t.mem.byte a = s.mem.byte a
  frame  : OnlyMem s t

theorem storedAtI_setMem_putAll {s : State} (hm : s.mem.wf = true) {bs : List Byte}
    (hfit : s.base + bs.length ≤ 4096) : StoredAtI s bs (s.setMem (s.mem.putAll s.base bs)) where
  stored k hk := by
    rw [State.setMem_mem, Memory.byte_putAll hm bs hfit, if_pos (by omega), Nat.add_sub_cancel_left]
  others a ha := by
    rw [State.setMem_mem, Memory.byte_putAll hm bs hfit, if_neg (by omega)]
  frame := ⟨rfl, Memory.putAll_font ..⟩

/-- A store at I stores all its bytes, or raises AddressOutOfRange with nothing stored (R147). -/
theorem storeAtI_answers {s : State} (hm : s.mem.wf = true) (bs : List Byte) :
    ∃ t, s.storeAtI bs = .next t ∧ (s.base + bs.length ≤ 4096 → StoredAtI s bs t) ∧
      (4096 < s.base + bs.length → t = Faulted s 4) := by
  rw [State.storeAtI_eq]
  by_cases hfit : s.base + bs.length ≤ 4096
  · exact ⟨_, if_pos hfit, storedAtI_setMem_putAll hm, fun hout => absurd hfit hout.not_ge⟩
  · exact ⟨_, if_neg hfit, fun hin => absurd hin hfit, fun _ => raiseInsn_eq_faulted ..⟩

theorem exec_ldBVx (x : RegNo) (s : State) : exec (.ldBVx x) s = s.storeAtI (bcdDigits (s.reg x)) := rfl

theorem exec_ldMiVx (x : RegNo) (s : State) : exec (.ldMiVx x) s = s.storeAtI (s.regsUpTo x) := rfl

/-- Each decimal digit fits the byte it is stored in (R143). -/
theorem bcdDigits_toNat (b : Byte) :
    ((bcdDigits b).getD 0 0).toNat = b.toNat / 100 ∧
      ((bcdDigits b).getD 1 0).toNat = b.toNat / 10 % 10 ∧ ((bcdDigits b).getD 2 0).toNat = b.toNat % 10 := by
  have := b.isLt
  exact ⟨Nat.mod_eq_of_lt (by omega), Nat.mod_eq_of_lt (by omega), Nat.mod_eq_of_lt (by omega)⟩

/-- Settles O17: a store at I of the three digits. -/
theorem storeDecimalDigits : Obligations.StoreDecimalDigits := by
  refine ⟨decodeOp_of_row (.ldBVx 0), fun x s hm => ?_⟩
  obtain ⟨t, ht, hstore, hfault⟩ := storeAtI_answers hm (bcdDigits (s.reg x))
  have hlen := bcdDigits_length (s.reg x)
  refine ⟨t, (exec_ldBVx x s).trans ht, fun hin => ?_, fun hout => hfault (by omega)⟩
  obtain ⟨hstored, hothers, hframe⟩ := hstore (by omega)
  obtain ⟨hhundreds, htens, hones⟩ := bcdDigits_toNat (s.reg x)
  refine ⟨?_, ?_, ?_, fun a ha => hothers a (by omega), hframe⟩
  · rw [← hhundreds, ← hstored 0 (by omega), Nat.add_zero]
  · rw [← htens, ← hstored 1 (by omega)]
  · rw [← hones, ← hstored 2 (by omega)]

/-- Settles O18: a store at I of the register range. -/
theorem storeRegisters : Obligations.StoreRegisters := by
  refine ⟨decodeOp_of_row (.ldMiVx 0), fun x s hm => ?_⟩
  obtain ⟨t, ht, hstore, hfault⟩ := storeAtI_answers hm (s.regsUpTo x)
  have hlen := s.regsUpTo_length x
  refine ⟨t, (exec_ldMiVx x s).trans ht, fun hin => ?_, fun hout => hfault (by omega)⟩
  obtain ⟨hstored, hothers, hframe⟩ := hstore (by omega)
  refine ⟨fun r hr => ?_, fun a ha => hothers a (by omega), hframe⟩
  rw [hstored r.val (by omega), s.regsUpTo_getD x r hr]

/-! ### Loads from I (R145, R147) -/

theorem exec_ldVxMi_of_lt {s : State} {x : RegNo} (h : s.base + x.val < 4096) :
    exec (.ldVxMi x) s =
      .next (s.loadRegsUpTo x ((List.range (x.val + 1)).map fun k => s.mem.byte (s.base + k))) := by
  rw [exec, execLdVxMi, Memory.readRange_eq s.mem s.base_lt, if_pos (by omega), State.orRaise_ok]

theorem exec_ldVxMi_of_le {s : State} {x : RegNo} (h : 4096 ≤ s.base + x.val) :
    exec (.ldVxMi x) s = .next (Faulted s 4) := by
  rw [exec, execLdVxMi, Memory.readRange_eq s.mem s.base_lt, if_neg (by omega), State.orRaise_error,
    raiseInsn_eq_faulted, Fault.code]

/-- Settles O19: the bytes read from I on are the registers loaded. -/
theorem loadRegisters : Obligations.LoadRegisters := by
  refine ⟨decodeOp_of_row (.ldVxMi 0), fun x s => ?_⟩
  obtain hin | hout := Nat.lt_or_ge (s.base + x.val) 4096
  · refine ⟨_, exec_ldVxMi_of_lt hin, fun _ => ⟨fun r => ?_, rfl, fun _ => rfl⟩, by omega⟩
    rw [State.loadRegsUpTo_reg]
    split
    next hr => simp [List.getD_eq_getElem?_getD, List.getElem?_range (Nat.lt_succ_of_le hr)]
    next => rfl
  · exact ⟨_, exec_ldVxMi_of_le hout, by omega, fun _ => rfl⟩

end Sys2Proof.Machine
end

section
/-! PROOFS. Display (spec/44_display.md R160 to R168): the row mask bit by bit, a sprite as a set of pixels, what a
draw does to each pixel and when it collides, and the two display instructions. -/

namespace Sys2Proof.Machine

open Sys2Proof.Claims

/-! ### The row mask bit by bit (R161) -/

/-- A byte shifted left inside a row has its bit `k - n` at bit `k`. -/
theorem setWidth_shiftLeft_getLsbD (b : Byte) (n : Nat) {k : Nat} (hk : k < 64) :
    (b.setWidth 64 <<< n).getLsbD k = (decide (n ≤ k) && b.getLsbD (k - n)) := by
  have hfit : k - n < 64 := by omega
  rw [BitVec.getLsbD_shiftLeft, BitVec.getLsbD_setWidth, decide_eq_true hk, decide_eq_true hfit,
    Bool.true_and, Bool.true_and, ← decide_not, decide_eq_decide.mpr Nat.not_lt]

/-- The rotation brings bit `k + x`, taken around the edge, to bit `k`; the byte lies in bits 56 and up. -/
theorem rowMask_getLsbD (b : Byte) {x k : Nat} (hx : x < 64) (hk : k < 64) :
    (rowMask b x).getLsbD k = (decide (56 ≤ (k + x) % 64) && b.getLsbD ((k + x) % 64 - 56)) := by
  rw [← setWidth_shiftLeft_getLsbD b 56 (Nat.mod_lt _ (by decide)), rowMask, BitVec.getLsbD_rotateRight,
    Nat.mod_eq_of_lt hx]
  by_cases hlow : k < 64 - x
  · rw [decide_eq_true hlow, cond_true, Nat.mod_eq_of_lt (by omega), Nat.add_comm x k]
  · have hwrap : k - (64 - x) = (k + x) % 64 := by omega
    rw [decide_eq_false hlow, cond_false, decide_eq_true hk, Bool.true_and, hwrap]

/-- The same bit by its column: `j = (c - x) mod 64` columns right of `x` stands bit `7 - j` (R160). -/
theorem rowMask_column (b : Byte) {x c : Nat} (hx : x < 64) (hc : c < 64) :
    (rowMask b x).getLsbD (63 - c) =
      (decide ((c + 64 - x) % 64 < 8) && b.getLsbD (7 - (c + 64 - x) % 64)) := by
  have hbit : (63 - c + x) % 64 = 63 - (c + 64 - x) % 64 := by omega
  have hin : 56 ≤ 63 - (c + 64 - x) % 64 ↔ (c + 64 - x) % 64 < 8 := by omega
  have hidx : 63 - (c + 64 - x) % 64 - 56 = 7 - (c + 64 - x) % 64 := by omega
  rw [rowMask_getLsbD b hx (by omega), hbit, hidx, decide_eq_decide.mpr hin]

/-- Up to column 56 the byte does not reach the edge, and the mask is a shift. -/
theorem rowMask_eq_shiftLeft (b : Byte) {x : Nat} (hx : x ≤ 56) :
    rowMask b x = b.setWidth 64 <<< (56 - x) := by
  apply BitVec.eq_of_getLsbD_eq
  intro k hk
  rw [rowMask_getLsbD b (by omega) hk, setWidth_shiftLeft_getLsbD b _ hk]
  by_cases hright : k + x < 64
  · have hin : 56 ≤ k + x ↔ 56 - x ≤ k := by omega
    have hidx : k + x - 56 = k - (56 - x) := by omega
    rw [Nat.mod_eq_of_lt hright, decide_eq_decide.mpr hin, hidx]
  · have hout : ¬ 56 ≤ (k + x) % 64 := by omega
    have hpast : 8 ≤ k - (56 - x) := by omega
    rw [decide_eq_false hout, BitVec.getLsbD_of_ge b _ hpast, Bool.false_and, Bool.and_false]

/-- The low `k` bits of a byte, as the source cuts them out. -/
theorem and_two_pow_sub_one_getLsbD (b : Byte) (k i : Nat) :
    (b &&& BitVec.ofNat 8 (2 ^ k - 1)).getLsbD i = (decide (i < k) && b.getLsbD i) := by
  by_cases hi : i < 8
  · rw [BitVec.getLsbD_and, BitVec.getLsbD_ofNat, Nat.testBit_two_pow_sub_one, decide_eq_true hi, Bool.true_and,
      Bool.and_comm]
  · rw [BitVec.getLsbD_of_ge _ _ (Nat.not_lt.mp hi), BitVec.getLsbD_of_ge b _ (Nat.not_lt.mp hi), Bool.and_false]

/-- Past column 56 the mask is the part of the byte left of the edge and the `k` bits that re-enter. -/
theorem rowMask_eq_split (b : Byte) {k : Nat} (h1 : 1 ≤ k) (h7 : k ≤ 7) :
    rowMask b (56 + k) =
      ((b >>> k).setWidth 64 ||| (b &&& BitVec.ofNat 8 (2 ^ k - 1)).setWidth 64 <<< (64 - k)) := by
  apply BitVec.eq_of_getLsbD_eq
  intro i hi
  rw [rowMask_getLsbD b (by omega) hi, BitVec.getLsbD_or, BitVec.getLsbD_setWidth, decide_eq_true hi,
    Bool.true_and, BitVec.getLsbD_ushiftRight, setWidth_shiftLeft_getLsbD _ _ hi,
    and_two_pow_sub_one_getLsbD]
  by_cases hleft : k + i < 8
  · have hidx : (i + (56 + k)) % 64 = 56 + (k + i) := by omega
    have hout : ¬ 64 - k ≤ i := by omega
    simp [hidx, hout]
  · have hpast : b.getLsbD (k + i) = false := BitVec.getLsbD_of_ge b _ (by omega)
    have hin : 56 ≤ (i + (56 + k)) % 64 ↔ 64 - k ≤ i := by omega
    have hidx : (i + (56 + k)) % 64 - 56 = i - (64 - k) := by omega
    have hlow : i - (64 - k) < k := by omega
    rw [hpast, Bool.false_or, decide_eq_decide.mpr hin, hidx, decide_eq_true hlow, Bool.true_and]

/-- Settles O22: both forms of the source are compared with the rotation bit by bit. -/
theorem rowMaskPlacesEightColumns : Obligations.RowMaskPlacesEightColumns :=
  ⟨fun b _ _ => rowMask_column b, fun b _ => rowMask_eq_shiftLeft b, fun b _ => rowMask_eq_split b⟩

/-! ### Pixels (R28, R160, R162, R163) -/

/-- Whether the sprite `bs` drawn at column x, row y has its pixel on at column c, row r. -/
def spritePixel (bs : List Byte) (x y c r : Nat) : Bool :=
  decide (y ≤ r ∧ r < y + bs.length) && (rowMask (bs.getD (r - y) 0) x).getLsbD (63 - c)

/-- Displays that agree pixel by pixel are equal. -/
theorem display_ext {d d' : Display} (h : ∀ c r, c < 64 → pixel d c r = pixel d' c r) : d = d' := by
  refine Vector.ext fun r hr => BitVec.eq_of_getLsbD_eq fun k hk => ?_
  have hpixel := h (63 - k) ⟨r, hr⟩ (by omega)
  rwa [pixel, pixel, Nat.sub_sub_self (by omega)] at hpixel

@[simp] theorem pixel_blankDisplay (c : Nat) (r : Fin 32) : pixel blankDisplay c r = false := by
  simp [pixel, blankDisplay]

/-- A draw toggles exactly the sprite's pixels. -/
theorem pixel_drawSprite (d : Display) (x y : Nat) (bs : List Byte) (c : Nat) (r : Fin 32) :
    pixel (drawSprite d x y bs).1 c r = Bool.xor (pixel d c r) (spritePixel bs x y c r.val) := by
  rw [pixel, drawSprite_getElem, spritePixel, pixel]
  split
  next hrow => rw [BitVec.getLsbD_xor, decide_eq_true hrow, Bool.true_and]
  next hrow => rw [decide_eq_false hrow, Bool.false_and, Bool.xor_false]

/-- A draw collides exactly when a pixel is on both in the display and in the sprite. -/
theorem drawSprite_collides_iff (d : Display) (x y : Nat) (bs : List Byte) :
    (drawSprite d x y bs).2 = true ↔
      ∃ c r, c < 64 ∧ pixel d c r = true ∧ spritePixel bs x y c r.val = true := by
  simp only [drawSprite_hit, row_meets, spritePixel, pixel, Bool.and_eq_true, decide_eq_true_eq]
  constructor
  · rintro ⟨j, hj, hlen, k, hd, hm⟩
    have hk : k < 64 := BitVec.lt_of_getLsbD hd
    have hcol : 63 - (63 - k) = k := by omega
    refine ⟨63 - k, ⟨y + j, hj⟩, by omega, ?_, ⟨Nat.le_add_right y j, Nat.add_lt_add_left hlen y⟩, ?_⟩
    · rwa [hcol]
    · rwa [hcol, Nat.add_sub_cancel_left]
  · rintro ⟨c, ⟨r, hr⟩, hc, hd, ⟨hy, hlen⟩, hm⟩
    obtain ⟨j, rfl⟩ := Nat.exists_eq_add_of_le hy
    rw [Nat.add_sub_cancel_left] at hm
    exact ⟨j, hr, Nat.add_lt_add_iff_left.mp hlen, 63 - c, hd, hm⟩

/-! ### Drawing twice (R168) -/

theorem drawSprite_drawSprite (d : Display) (x y : Nat) (bs : List Byte) :
    (drawSprite (drawSprite d x y bs).1 x y bs).1 = d :=
  display_ext fun c r _ => by simp only [pixel_drawSprite, Bool.xor_assoc, Bool.xor_self, Bool.xor_false]

/-- What the second draw erases is what the first turned on. -/
theorem drawSprite_drawSprite_collides_iff (d : Display) (x y : Nat) (bs : List Byte) :
    (drawSprite (drawSprite d x y bs).1 x y bs).2 = true ↔
      ∃ c r, c < 64 ∧ pixel d c r = false ∧ pixel (drawSprite d x y bs).1 c r = true := by
  have hon : ∀ p q : Bool, (Bool.xor p q = true ∧ q = true) ↔ (p = false ∧ Bool.xor p q = true) := by decide
  simp only [drawSprite_collides_iff, pixel_drawSprite, hon]

/-- A byte drawn at column 60 on a blank display: its high four bits to the edge, its low four re-entering. -/
theorem pixel_drawSprite_blank_60 (b : Byte) (r : Fin 32) {c : Nat} (hc : c < 64) :
    pixel (drawSprite blankDisplay 60 r.val [b]).1 c r =
      if 60 ≤ c then b.getLsbD (7 - (c - 60)) else if c < 4 then b.getLsbD (3 - c) else false := by
  have hsprite : spritePixel [b] 60 r.val c r.val = (rowMask b 60).getLsbD (63 - c) := by simp [spritePixel]
  rw [pixel_drawSprite, pixel_blankDisplay, Bool.false_xor, hsprite, rowMask_column b (by omega) hc]
  split
  next hright =>
    have hj : (c + 64 - 60) % 64 = c - 60 := by omega
    rw [hj, decide_eq_true (by omega), Bool.true_and]
  next =>
    have hj : (c + 64 - 60) % 64 = c + 4 := by omega
    have hidx : 7 - (c + 4) = 3 - c := by omega
    rw [hj, hidx]
    split
    next hleft => rw [decide_eq_true (by omega), Bool.true_and]
    next => rw [decide_eq_false (by omega), Bool.false_and]

/-- Settles O23: a draw toggles the sprite's pixels, and toggling twice is the identity. -/
theorem drawTwiceRestoresDisplay : Obligations.DrawTwiceRestoresDisplay :=
  ⟨fun d x y bs _ => ⟨drawSprite_drawSprite d x y bs, drawSprite_drawSprite_collides_iff d x y bs⟩,
    fun b r _ => pixel_drawSprite_blank_60 b r⟩

/-! ### The instructions (R164, R165) -/

theorem exec_cls (s : State) : exec .cls s = .next (s.setDisp blankDisplay) := rfl

theorem blankDisplay_getElem (r : Fin 32) : blankDisplay[r.val] = 0 := by simp [blankDisplay]

/-- Settles O20: one write of the display. -/
theorem clearDisplay : Obligations.ClearDisplay :=
  ⟨decodeOp_of_row .cls, fun s =>
    ⟨_, exec_cls s, blankDisplay_getElem, rfl, fun _ => rfl⟩⟩

/-- The `n` bytes from I on: the sprite DXYN draws. -/
def State.spriteBytes (s : State) (n : Nat) : List Byte := (List.range n).map fun k => s.mem.byte (s.base + k)

theorem exec_drw_of_le {s : State} {n : Fin 16} (h : s.base + n.val ≤ 4096) (x y : RegNo) :
    exec (.drw x y n) s =
      .next (s.drawAt ((s.reg x).toNat % 64) (s.reg y).toNat (s.spriteBytes n.val)) := by
  rw [exec, execDrw, Memory.readRange_eq s.mem s.base_lt, if_pos h, State.orRaise_ok, State.spriteBytes]

theorem exec_drw_of_lt {s : State} {n : Fin 16} (h : 4096 < s.base + n.val) (x y : RegNo) :
    exec (.drw x y n) s = .next (Faulted s 4) := by
  rw [exec, execDrw, Memory.readRange_eq s.mem s.base_lt, if_neg h.not_ge, State.orRaise_error,
    raiseInsn_eq_faulted, Fault.code]

/-- The sprite's pixels, read from memory, are the statement's. -/
theorem spritePixel_spriteBytes (s : State) (n y r : Nat) {x c : Nat} (hx : x < 64) (hc : c < 64) :
    spritePixel (s.spriteBytes n) x y c r = spriteOn s.mem s.base n x y c r := by
  have hlen : (s.spriteBytes n).length = n := by simp [State.spriteBytes]
  rw [spritePixel, spriteOn, hlen, rowMask_column _ hx hc]
  by_cases hrow : y ≤ r ∧ r < y + n
  · have hget : (s.spriteBytes n).getD (r - y) 0 = s.mem.byte (s.base + (r - y)) := by
      have : r - y < n := by omega
      simp [State.spriteBytes, this]
    simp only [hget, hrow, true_and, decide_true, Bool.true_and]
  · simp [hrow, ← and_assoc]

section
variable (s : State) (x y : Nat) (bs : List Byte)

theorem State.drawAt_disp : (s.drawAt x y bs).disp = (drawSprite s.disp x y bs).1 := rfl

theorem State.drawAt_reg (r : RegNo) :
    (s.drawAt x y bs).reg r = if r = vf then flagByte (drawSprite s.disp x y bs).2 else s.reg r :=
  State.setReg_reg _ vf _ r

theorem State.drawAt_frame :
    s.drawAt x y bs = { s with v := (s.drawAt x y bs).v, disp := (s.drawAt x y bs).disp } := rfl

end

theorem flagByte_eq_zero_or_one (c : Bool) : flagByte c = 0 ∨ flagByte c = 1 := by cases c <;> decide

theorem flagByte_eq_one_iff (c : Bool) : flagByte c = 1 ↔ c = true := by cases c <;> decide

/-- Settles O21: the bytes are read and drawn, or nothing is; the sprite's pixels are those of `spriteOn`. -/
theorem drawTogglesSpritePixels : Obligations.DrawTogglesSpritePixels := by
  refine ⟨decodeOp_of_row (.drw 0 0 0), fun x y n s => ?_⟩
  have hbase := s.base_lt
  obtain hin | hout := le_or_gt (s.base + n.val) 4096
  · have hcol : (s.reg x).toNat % 64 < 64 := Nat.mod_lt _ (by decide)
    have hsprite := fun c (r : Fin 32) (hc : c < 64) =>
      spritePixel_spriteBytes s n.val (s.reg y).toNat r.val hcol hc
    have hvf := s.drawAt_reg ((s.reg x).toNat % 64) (s.reg y).toNat (s.spriteBytes n.val) 15
    rw [if_pos rfl] at hvf
    refine ⟨_, exec_drw_of_le hin x y, fun _ => ⟨?toggled, ?flag, ?collides, ?regs, s.drawAt_frame _ _ _,
      fun _ => rfl⟩, by omega⟩
    case toggled =>
      intro c r hc
      rw [State.drawAt_disp, pixel_drawSprite, hsprite c r hc]
    case flag =>
      rw [hvf]
      exact flagByte_eq_zero_or_one _
    case collides =>
      rw [hvf, flagByte_eq_one_iff, drawSprite_collides_iff]
      refine exists_congr fun c => exists_congr fun r => and_congr_right fun hc => ?_
      rw [hsprite c r hc]
    case regs =>
      intro r hr
      rw [State.drawAt_reg, if_neg hr]
  · exact ⟨_, exec_drw_of_lt hout x y, by omega, fun _ => rfl⟩

end Sys2Proof.Machine
end

section
/-! PROOFS. Timers, keypad, random (spec/45_timer_key_random.md R180 to R187): what each instruction answers, the
skips read through the key number, and the tick as the closed form of one tick. -/

namespace Sys2Proof.Machine

open Sys2Proof.Claims

/-! ### The timers (R180 to R183) -/

section
variable (x : RegNo) (s : State)

theorem exec_ldVxDt : exec (.ldVxDt x) s = .next (s.setReg x s.dt) := rfl

theorem exec_ldDtVx : exec (.ldDtVx x) s = .next (s.setDt (s.reg x)) := rfl

theorem exec_ldStVx : exec (.ldStVx x) s = .next (s.setSt (s.reg x)) := rfl

theorem State.tick_eq_ticks_one : s.tick = s.ticks 1 := by rw [s.ticks_succ 0, State.ticks_zero]

theorem deliver_tick : Event.deliver .tick s = .next (s.ticks 1) :=
  congrArg Host.Outcome.next s.tick_eq_ticks_one

/-- The timer of the closed form is the difference over the naturals: it stops at 0 and is not reduced (R183). -/
theorem ofNat_toNat_sub (b : Byte) (n : Nat) : (BitVec.ofNat 8 (b.toNat - n)).toNat = b.toNat - n := by
  have := b.isLt
  rw [BitVec.toNat_ofNat]
  omega

end

/-- Settles O24: the read is one register write of DT. -/
theorem readDelayTimer : Obligations.ReadDelayTimer :=
  ⟨decodeOp_of_row (.ldVxDt 0), fun x s =>
    ⟨_, exec_ldVxDt x s, s.setReg_reg x s.dt, s.onlyRegs_setReg x s.dt⟩⟩

/-- Settles O25: each write is one timer update. -/
theorem writeTimers : Obligations.WriteTimers :=
  ⟨decodeOp_of_row (.ldDtVx 0), decodeOp_of_row (.ldStVx 0), fun x s =>
    ⟨exec_ldDtVx x s, exec_ldStVx x s⟩⟩

/-- Settles O26: the tick is one tick of the closed form, whether or not the latch is set (D24). -/
theorem tickDecrementsTimers : Obligations.TickDecrementsTimers := fun s =>
  ⟨_, deliver_tick s, ofNat_toNat_sub s.dt 1, ofNat_toNat_sub s.st 1, rfl, fun _ => rfl⟩

/-! ### The key states (R184, R185) -/

section
variable (x : RegNo) (s : State)

theorem exec_skp : exec (.skp x) s = .next (s.skipIf (s.keyDown (lowNibble (s.reg x)))) := rfl

theorem exec_sknp : exec (.sknp x) s = .next (s.skipIf (!s.keyDown (lowNibble (s.reg x)))) := rfl

theorem keyDown_lowNibble (b : Byte) :
    s.keyDown (lowNibble b) = s.port.env.keys.getLsbD (b.toNat % 16) := by
  rw [State.keyDown, lowNibble_val]

theorem skipIf_not (c : Bool) : s.skipIf (!c) = { s with pc := if c then s.pc else s.pc + 2 } := by
  cases c <;> rfl

end

/-- Settles O27: both skips read the key numbered by the low nibble (D14), the second one negated. -/
theorem skipOnKey : Obligations.SkipOnKey := by
  refine ⟨decodeOp_of_row (.skp 0), decodeOp_of_row (.sknp 0), fun x s => ⟨?pressed, ?notPressed⟩⟩
  case pressed => rw [exec_skp, keyDown_lowNibble, State.skipIf_eq]
  case notPressed => rw [exec_sknp, keyDown_lowNibble, skipIf_not]

/-! ### The key wait (R186) -/

section
variable {s : State}

theorem exec_ldVxK_of_some {k : KeyNo} (h : s.port.env.poll = some k) (x : RegNo) :
    exec (.ldVxK x) s = .next (s.setReg x (keyByte k)) := by
  rw [exec, execLdVxK, h]

theorem exec_ldVxK_of_none (h : s.port.env.poll = none) (x : RegNo) :
    exec (.ldVxK x) s = .next (s.setPc s.port.insnAddr) := by
  rw [exec, execLdVxK, h]

theorem keyByte_toNat (k : KeyNo) : (keyByte k).toNat = k.val := by
  have := k.isLt
  rw [keyByte, BitVec.toNat_ofNat]
  omega

end

/-- Settles O28: by the poll's answer, one register write of the key or one write of PC (D6). -/
theorem keyWaitStoresOrRetries : Obligations.KeyWaitStoresOrRetries := by
  refine ⟨decodeOp_of_row (.ldVxK 0), fun x s => ?_⟩
  cases hpoll : s.port.env.poll with
  | some k =>
    refine ⟨_, exec_ldVxK_of_some hpoll x, fun k' hk' => ?_, nofun⟩
    obtain rfl : k = k' := Option.some.inj hk'
    exact ⟨by rw [State.setReg_reg_same, keyByte_toNat], s.setReg_reg_frame x _, s.onlyRegs_setReg x _⟩
  | none => exact ⟨_, exec_ldVxK_of_none hpoll x, nofun, fun _ => ⟨rfl, rfl, fun _ => rfl⟩⟩

/-! ### The random byte (R187) -/

theorem exec_rnd (x : RegNo) (kk : Byte) (s : State) :
    exec (.rnd x kk) s = .next (s.setReg x (s.port.env.rnd &&& kk)) := rfl

/-- Settles O29: one register write of the masked byte, whatever byte the record presents (D26). -/
theorem randomAndMask : Obligations.RandomAndMask :=
  ⟨decodeOp_of_row (.rnd 0 0), fun x kk s =>
    ⟨_, exec_rnd x kk s, s.setReg_reg x _, s.onlyRegs_setReg x _⟩⟩

end Sys2Proof.Machine
end

section
/-! PROOFS. Fatal faults (spec/60_exceptions.md R201, R207, R208, R210): an instruction either takes its one fault or
keeps the latch, what that makes of a step that halts the machine, and what a halted machine still does. -/

namespace Sys2Proof.Machine

open Sys2Proof.Claims

variable {i : Instr} {s t : State}

/-! ### The fault table (R201, R210) -/

theorem raises_call (nnn : Addr) (s : State) :
    raises (.call nnn) s = if s.sp.val = 16 then some 2 else none := rfl

theorem raises_ret (s : State) : raises .ret s = if s.sp.val = 0 then some 3 else none := rfl

/-- The range of DXYN leaves memory; an empty sprite at a 12-bit I does not (R165). -/
theorem raises_drw (x y : RegNo) (n : Fin 16) (s : State) :
    raises (.drw x y n) s = if 4096 < s.base + n.val then some 4 else none := by
  have hrange : 1 ≤ n.val ∧ 4096 ≤ s.base + n.val - 1 ↔ 4096 < s.base + n.val := by
    have := s.base_lt
    omega
  exact if_congr hrange rfl rfl

theorem raises_ldBVx (x : RegNo) (s : State) :
    raises (.ldBVx x) s = if 4096 < s.base + (bcdDigits (s.reg x)).length then some 4 else none :=
  if_congr Nat.lt_succ_iff.symm rfl rfl

theorem raises_ldMiVx (x : RegNo) (s : State) :
    raises (.ldMiVx x) s = if 4096 < s.base + (s.regsUpTo x).length then some 4 else none := by
  rw [s.regsUpTo_length]
  exact if_congr Nat.lt_succ_iff.symm rfl rfl

theorem raises_ldVxMi (x : RegNo) (s : State) :
    raises (.ldVxMi x) s = if 4096 < s.base + (x.val + 1) then some 4 else none :=
  if_congr Nat.lt_succ_iff.symm rfl rfl

/-- An instruction's fault is StackOverflow, StackUnderflow or AddressOutOfRange. -/
theorem raises_code {code : BitVec 3} (h : raises i s = some code) : 2 ≤ code.toNat ∧ code.toNat ≤ 4 := by
  cases i with
  | call | ret | drw | ldBVx | ldMiVx | ldVxMi =>
    obtain ⟨_, hcode⟩ := Option.ite_none_right_eq_some.mp h
    cases hcode
    decide
  | _ => cases h

/-! ### An instruction takes its fault or keeps the latch -/

/-- HALT, FAULT and the port, report included, are as they were. -/
structure KeepsLatch (s t : State) : Prop where
  halt  : t.halt = s.halt
  fault : t.fault = s.fault
  port  : t.port = s.port

theorem keepsLatch_skipIf (s : State) (c : Bool) : KeepsLatch s (s.skipIf c) := by
  rw [State.skipIf_eq]
  exact ⟨rfl, rfl, rfl⟩

/-- What an instruction answers: its fault and nothing else, or a state with the latch as it was. -/
inductive Executes (i : Instr) (s : State) : Prop
  | raised {code : BitVec 3} (hr : raises i s = some code) (he : exec i s = .next (Faulted s code))
  | done {t : State} (hr : raises i s = none) (he : exec i s = .next t) (hk : KeepsLatch s t)

namespace Executes

/-- An instruction on `n` bytes from I on, which faults when they leave memory (R146, R147). -/
theorem ofRange {n : Nat} (hr : raises i s = if 4096 < s.base + n then some 4 else none)
    (hin : s.base + n ≤ 4096 → exec i s = .next t) (hk : KeepsLatch s t)
    (hout : 4096 < s.base + n → exec i s = .next (Faulted s 4)) : Executes i s := by
  obtain h | h := le_or_gt (s.base + n) 4096
  · exact .done (hr.trans (if_neg h.not_gt)) (hin h) hk
  · exact .raised (hr.trans (if_pos h)) (hout h)

theorem ofStore {bs : List Byte} (hr : raises i s = if 4096 < s.base + bs.length then some 4 else none)
    (he : exec i s = s.storeAtI bs) : Executes i s := by
  rw [State.storeAtI_eq, raiseInsn_eq_faulted] at he
  exact .ofRange hr (fun hin => he.trans (if_pos hin)) ⟨rfl, rfl, rfl⟩ (fun hout => he.trans (if_neg hout.not_ge))

theorem ret (s : State) : Executes .ret s := by
  obtain ⟨hsp, hpop⟩ | ⟨hsp, hpop⟩ := s.pop_cases
  · exact .done ((raises_ret s).trans (if_neg hsp.ne')) (exec_ret_of_pop hpop) ⟨rfl, rfl, rfl⟩
  · exact .raised ((raises_ret s).trans (if_pos hsp)) (exec_ret_of_pop_error hpop)

theorem call (nnn : Addr) (s : State) : Executes (.call nnn) s := by
  obtain ⟨hsp, hpush⟩ | ⟨hsp, hpush⟩ := s.push_cases s.pc
  · exact .done ((raises_call nnn s).trans (if_neg hsp.ne)) (exec_call_of_push hpush) ⟨rfl, rfl, rfl⟩
  · exact .raised ((raises_call nnn s).trans (if_pos hsp)) (exec_call_of_push_error hpush)

theorem drw (x y : RegNo) (n : Fin 16) (s : State) : Executes (.drw x y n) s :=
  .ofRange (raises_drw x y n s) (exec_drw_of_le · x y) ⟨rfl, rfl, rfl⟩ (exec_drw_of_lt · x y)

theorem ldVxMi (x : RegNo) (s : State) : Executes (.ldVxMi x) s :=
  .ofRange (raises_ldVxMi x s) exec_ldVxMi_of_lt
    ⟨s.loadRegsUpTo_halt x _, s.loadRegsUpTo_fault x _, s.loadRegsUpTo_port x _⟩
    (fun hout => exec_ldVxMi_of_le (Nat.le_of_lt_succ hout))

theorem ldVxK (x : RegNo) (s : State) : Executes (.ldVxK x) s := by
  cases hpoll : s.port.env.poll with
  | some k => exact .done rfl (exec_ldVxK_of_some hpoll x) ⟨rfl, rfl, rfl⟩
  | none => exact .done rfl (exec_ldVxK_of_none hpoll x) ⟨rfl, rfl, rfl⟩

end Executes

/-- Every instruction, from every state. -/
theorem exec_executes (i : Instr) (s : State) : Executes i s := by
  cases i with
  | cls | jp | jpV0 | ldVxKk | addVxKk | ldVxVy | orVxVy | andVxVy | xorVxVy | addVxVy | sub | shr | subn | shl
  | ldINnn | addIVx | ldFVx | rnd | ldVxDt | ldDtVx | ldStVx => exact .done rfl rfl ⟨rfl, rfl, rfl⟩
  | seVxKk | sneVxKk | seVxVy | sneVxVy | skp | sknp => exact .done rfl rfl (keepsLatch_skipIf s _)
  | ret => exact .ret s
  | call nnn => exact .call nnn s
  | drw x y n => exact .drw x y n s
  | ldBVx x => exact .ofStore (raises_ldBVx x s) (exec_ldBVx x s)
  | ldMiVx x => exact .ofStore (raises_ldMiVx x s) (exec_ldMiVx x s)
  | ldVxMi x => exact .ldVxMi x s
  | ldVxK x => exact .ldVxK x s

/-- Settles O48: the two things an instruction can answer are the table's two cases. -/
theorem faultConditionsAndCodes : Obligations.FaultConditionsAndCodes := by
  intro i s
  cases exec_executes i s with
  | raised hr he =>
    refine ⟨_, he, fun code hcode => ?_, fun hnone => nomatch hr.symm.trans hnone⟩
    cases hr.symm.trans hcode
    rfl
  | done hr he hk =>
    refine ⟨_, he, fun code hcode => ?_, fun _ => ⟨hk.halt, hk.fault, hk.port⟩⟩
    cases hr.symm.trans hcode

/-! ### A step that halts the machine (R207) -/

theorem pc_lt_of_fetch_ok {op : Word} (h : s.fetch = .ok op) : s.pc.toNat < 4095 := by
  by_contra hp
  rw [State.fetch_eq, if_neg hp] at h
  cases h

/-- Settles O49: of the Engine's four branches only the fetch fault and an instruction that raises set HALT. -/
theorem fatalFaultsArePrecise : Obligations.FatalFaultsArePrecise := by
  intro e s t hrun ht hhalt
  obtain ⟨hh, _⟩ | ⟨_, hp, he⟩ | ⟨_, _, _, _, _, he⟩ | ⟨op, i, _, hfetch, _, he⟩ :=
    engineStep_cases (s.presentEnv e)
  · cases hrun.symm.trans hh
  · cases he.symm.trans ht
    exact ⟨rfl, .inl ⟨hp, rfl, rfl⟩⟩
  · cases he.symm.trans ht
    cases hrun.symm.trans hhalt
  · cases exec_executes i ((s.presentEnv e).beginStep.holdOp op).advance with
    | raised hr hx =>
      cases (he.trans hx).symm.trans ht
      exact ⟨rfl, .inr ⟨pc_lt_of_fetch_ok hfetch, advancePc_eq_advanced s.pc, raises_code hr⟩⟩
    | done _ hx hk =>
      cases (he.trans hx).symm.trans ht
      cases hrun.symm.trans (hk.halt.symm.trans hhalt)

/-! ### The halted machine (R208) -/

theorem engineStep_of_halted (hh : s.halt = true) :
    engineStep s = .next (s.setReport (.fatal s.fault .latched)) := if_pos hh

theorem loadProgram_of_halted (hh : s.halt = true) (bytes : List Byte) :
    loadProgram bytes s = .next (s.setReport (.fatal s.fault .latched)) := if_pos hh

/-- Settles O34: step and load only report, and the tick does not read the latch (D20, D24). -/
theorem haltedMachineStaysFrozen : Obligations.HaltedMachineStaysFrozen := fun e bytes s hh =>
  ⟨⟨_, engineStep_of_halted (s := s.presentEnv e) hh, rfl, rfl⟩,
    ⟨_, loadProgram_of_halted hh bytes, rfl, rfl⟩,
    ⟨_, deliver_tick s, hh, rfl, ofNat_toNat_sub s.dt 1, ofNat_toNat_sub s.st 1⟩⟩

end Sys2Proof.Machine
end

section
/-! PROOFS. The load_program event (spec/70_reset_and_hazards.md R232, R233; D23): one equation for each of its
outcomes, and that they are all of them. -/

namespace Sys2Proof.Machine

open Sys2Proof.Claims

variable {s t : State} {bytes : List Byte}

/-- The state with the image standing at 0x200, `Ok` reported and the load window closed (R232; log 6, log 8). -/
def State.loadImage (s : State) (bytes : List Byte) : State :=
  { s with
    mem := s.mem.putAll 0x200 bytes
    port := { s.port with report := .ok, loadOpen := false } }

/-- An image fits when it ends within memory: 3584 bytes from 0x200 on (R232). -/
theorem imageFits_iff : imageFits bytes = true ↔ bytes.length ≤ 3584 := by
  rw [imageFits, decide_eq_true_iff, Config.progBase, Config.memSize]
  omega

theorem loadProgram_of_running (hh : s.halt = false) (bytes : List Byte) :
    loadProgram bytes s =
      if s.port.loadOpen = false then .refused .loadAfterStart
      else if imageFits bytes then .next (s.loadImage bytes)
      else .next (s.raise .programTooLarge (.load bytes.length)) :=
  if_neg (Bool.eq_false_iff.mp hh)

theorem loadProgram_of_closed (hh : s.halt = false) (hc : s.port.loadOpen = false) (bytes : List Byte) :
    loadProgram bytes s = .refused .loadAfterStart := by
  rw [loadProgram_of_running hh, if_pos hc]

theorem loadProgram_of_le (hh : s.halt = false) (ho : s.port.loadOpen = true) (hfit : bytes.length ≤ 3584) :
    loadProgram bytes s = .next (s.loadImage bytes) := by
  rw [loadProgram_of_running hh, if_neg (by simp [ho]),
    if_pos (imageFits_iff.mpr hfit)]

theorem loadProgram_of_lt (hh : s.halt = false) (ho : s.port.loadOpen = true) (hbig : 3584 < bytes.length) :
    loadProgram bytes s = .next (s.raise .programTooLarge (.load bytes.length)) := by
  rw [loadProgram_of_running hh, if_neg (by simp [ho]), if_neg (imageFits_iff.not.mpr hbig.not_ge)]

/-- A load that answers a next state is one of three: latched, the image placed, or ProgramTooLarge. -/
theorem loadProgram_next_cases (ht : loadProgram bytes s = .next t) :
    t = s.setReport (.fatal s.fault .latched) ∨
    (bytes.length ≤ 3584 ∧ t = s.loadImage bytes) ∨
    t = s.raise .programTooLarge (.load bytes.length) := by
  cases hh : s.halt with
  | true => cases (loadProgram_of_halted hh bytes).symm.trans ht; exact .inl rfl
  | false =>
    cases ho : s.port.loadOpen with
    | false => cases (loadProgram_of_closed hh ho bytes).symm.trans ht
    | true =>
      obtain hfit | hbig := le_or_gt bytes.length 3584
      · cases (loadProgram_of_le hh ho hfit).symm.trans ht; exact .inr (.inl ⟨hfit, rfl⟩)
      · cases (loadProgram_of_lt hh ho hbig).symm.trans ht; exact .inr (.inr rfl)

/-- The image's bytes stand from 0x200 on. -/
theorem State.loadImage_byte_of_lt (hm : s.mem.wf = true) (hfit : bytes.length ≤ 3584) {k : Nat}
    (hk : k < bytes.length) : (s.loadImage bytes).mem.byte (0x200 + k) = bytes.getD k 0 := by
  rw [State.loadImage, Memory.byte_putAll hm bytes (by omega), if_pos (by omega), Nat.add_sub_cancel_left]

/-- Every byte outside the image reads as before. -/
theorem State.loadImage_byte_of_outside (hm : s.mem.wf = true) (hfit : bytes.length ≤ 3584) {a : Nat}
    (ha : a < 0x200 ∨ 0x200 + bytes.length ≤ a) : (s.loadImage bytes).mem.byte a = s.mem.byte a := by
  rw [State.loadImage, Memory.byte_putAll hm bytes (by omega), if_neg (by omega)]

/-- Settles O37: of the load's outcomes while running, the window and the image's length choose one. -/
theorem loadProgramStandsImage : Obligations.LoadProgramStandsImage := by
  refine fun bytes s hm hh => ⟨fun ⟨ho, hfit⟩ => ?_, fun ⟨ho, hbig⟩ => ?_, fun hc => ?_⟩
  · exact ⟨_, loadProgram_of_le hh ho hfit, fun _ => State.loadImage_byte_of_lt hm hfit,
      fun _ => State.loadImage_byte_of_outside hm hfit, rfl, rfl, rfl⟩
  · exact ⟨_, loadProgram_of_lt hh ho hbig, rfl, fun _ => rfl, rfl⟩
  · exact loadProgram_of_closed hh hc bytes

end Sys2Proof.Machine
end

section
/-! PROOFS. A step of the model as a schedule of events (spec/70_reset_and_hazards.md R239, R241; R183). -/

namespace Sys2Proof.Machine

open Sys2Proof.Claims

theorem deliverAll_cons_of_next {e : Event} {s t : State} (h : e.deliver s = .next t) (es : List Event) :
    deliverAll (e :: es) s = deliverAll es t := by
  rw [deliverAll, h]

/-- One event delivered alone is that event. -/
theorem deliverAll_singleton (e : Event) (s : State) : deliverAll [e] s = e.deliver s := by
  rw [deliverAll]
  cases e.deliver s <;> rfl

/-- `n` tick events one by one are the closed form of `n` ticks. -/
theorem deliverAll_replicate_tick_append (n : Nat) (es : List Event) (s : State) :
    deliverAll (List.replicate n .tick ++ es) s = deliverAll es (s.ticks n) := by
  induction n generalizing s with
  | zero => rw [State.ticks_zero]; rfl
  | succ n ih =>
    calc deliverAll (List.replicate (n + 1) .tick ++ es) s
        = deliverAll (List.replicate n .tick ++ es) s.tick := deliverAll_cons_of_next rfl _
      _ = deliverAll es (s.ticks (n + 1)) := by rw [ih, ← State.ticks_succ]

/-- Settles O53: the ticks collapse to their closed form, which is what arrives before the Engine's step. -/
theorem stepIsTicksThenStepEvent : Obligations.StepIsTicksThenStepEvent := fun s => by
  rw [deliverAll_replicate_tick_append, deliverAll_singleton]
  rfl

end Sys2Proof.Machine
end

section
/-! PROOFS. Every event of the interface keeps the invariant (spec/70_reset_and_hazards.md R240). -/

namespace Sys2Proof.Safety

open Sys2Proof.Machine

variable {s t : State}

/-- The reset event is the reset state with another port, which the invariant does not read. -/
theorem inv_resetEvent (s : State) : Inv s.resetEvent :=
  (resetMeetsInvariant s.mem.font).of_eq rfl rfl rfl rfl rfl

theorem Inv.loadImage (h : Inv s) {bytes : List Byte} (hfit : bytes.length ≤ 3584) :
    Inv (s.loadImage bytes) :=
  (h.setMem (Memory.wf_putAll h.mem bytes (by omega))).of_eq rfl rfl rfl rfl rfl

theorem Inv.loadProgram (h : Inv s) {bytes : List Byte} (ht : loadProgram bytes s = .next t) : Inv t := by
  obtain rfl | ⟨hfit, rfl⟩ | rfl := loadProgram_next_cases ht
  · exact h.setReport _
  · exact h.loadImage hfit
  · exact h.raise (by decide) _

/-- Settles O45: event by event; reset needs no invariant before it, the step event is O44's Engine step. -/
theorem eventsKeepInvariant : Obligations.EventsKeepInvariant := fun e s t h ht => by
  cases e with
  | reset => exact inv_of_next ht (inv_resetEvent s)
  | loadProgram bytes => exact h.loadProgram ht
  | step env => exact (h.presentEnv env).engineStep ht
  | tick => exact inv_of_next ((deliver_tick s).symm.trans ht) (h.ticks 1)
  | snapshot => exact inv_of_next ht h

end Sys2Proof.Safety
end
